-- ==== Sys2Proof/Word.lean ====
section
/-!
DEFINITION. The plain data CORE computes with: bits, bytes, symbols (00_scope.md R10, R11). Bit N-1 of an N-bit
value is the most significant one (R10), which is `BitVec`'s own numbering.
-/
namespace Sys2Proof

/-- One buffered symbol or one frame bit, `Bit` of R11: true is 1. -/
abbrev Bit := Bool

/-- `u8` of R11. -/
abbrev Byte := BitVec 8

/-- `Symbol` of R11; its 2-bit code is R62. -/
inductive Symbol
  | noise
  | shortOff
  | longOff
  | on
deriving DecidableEq, Repr

end Sys2Proof
end

