-- ==== Sys2Proof/Config.lean ====
section
/-!
DEFINITION. The one configuration record of R8: every numeric literal of the source document, and the two parameters that
92_eei_decisions.md leaves open or optional. The record's values are `Machine.config` in Machine/Params.lean. The shared
operations take the record as an argument, so that a claim can be made for every value of a field; the types of timestamps,
frames and buffer fields (Syntax.lean) take their sizes from it.
-/
namespace Sys2Proof

/-- The parameters of R8. -/
structure Config where
  /-- `TS_WIDTH`, bits of a timestamp. -/
  tsWidth : Nat
  /-- `TS_UNIT`, µs: the unit of a timestamp and of a duration. -/
  tsUnit : Nat
  /-- `T_ON`, µs. -/
  tOn : Nat
  /-- `T_SHORT`, µs. -/
  tShort : Nat
  /-- `T_LONG`, µs. -/
  tLong : Nat
  /-- `JITTER`, µs: half-width of every window. -/
  jitter : Nat
  /-- `UPPER_INCLUSIVE` of R82 (log entry 2). -/
  upperInclusive : Bool
  /-- `BUF_CAP`, symbols. -/
  bufCap : Nat
  /-- `PREAMBLE`; `PRE_LEN` is its length. -/
  preamble : List Symbol
  /-- `FRAME_BYTES`. -/
  frameBytes : Nat
  /-- `CRC_POLY`. -/
  crcPoly : Byte
  /-- `CRC_INIT`. -/
  crcInit : Byte
  /-- `CRC_LEN`: how many bytes, from `byte[0]`, the checksum covers. -/
  crcLen : Nat
  /-- `LAST_TS_RESET`, OPEN (log entry 1), as a number of `TS_WIDTH` bits. -/
  lastTsReset : Nat
deriving DecidableEq, Repr

/-- `PRE_LEN` of R8. -/
def Config.preLen (c : Config) : Nat := c.preamble.length

/-- `FRAME_OFF = PRE_LEN / 2` of R8. -/
def Config.frameOff (c : Config) : Nat := c.preLen / 2

/-- `FRAME_BITS = 8 * FRAME_BYTES` of R8. -/
def Config.frameBits (c : Config) : Nat := 8 * c.frameBytes

end Sys2Proof
end

