-- ==== Sys2Proof/Machine/Params.lean ====
section
/-!
DEFINITION. The values of the configuration record: the document's literals (table of R8; unaudited, log entry 13).
-/
namespace Sys2Proof.Machine

/-- Every parameter of R8 at its specified value; `upperInclusive` as R80 has it (log entry 2), `lastTsReset` at the spec's
default (log entry 1). -/
def config : Config where
  tsWidth := 64
  tsUnit := 1
  tOn := 1000
  tShort := 500
  tLong := 1500
  jitter := 250
  upperInclusive := true
  bufCap := 128
  preamble := [.shortOff, .shortOff, .shortOff, .shortOff, .longOff, .shortOff, .longOff, .longOff]
  frameBytes := 5
  crcPoly := 0x31
  crcInit := 0x00
  crcLen := 4
  lastTsReset := 0

end Sys2Proof.Machine
end

