-- ==== Sys2Proof/Syntax.lean ====
section
/-!
DEFINITION. The types of R11 and the nine operations of the operation table (30_encoding.md R71), which stand where an
instruction set has instructions; and the words in which they reach CORE.
-/
namespace Sys2Proof

/-- A timestamp or a duration, an unsigned number of `TS_WIDTH` bits in units of `TS_UNIT` (R8, R11, R21). Here and below a width
is the record's own, entered as a numeral by reducing the field. -/
abbrev Ts := BitVec (reduceProj% (delta% Machine.config).tsWidth)

/-- The event word of R60: one level bit over a timestamp of 64. -/
abbrev EventWord := BitVec 65

/-- The `buf` field of an operand word of R71: `BUF_CAP` bits. -/
abbrev BufField := BitVec (reduceProj% (delta% Machine.config).bufCap)

/-- `Level` of R11. Its number at the port is R61: 1 is high. -/
inductive Level
  | low
  | high
deriving DecidableEq, Repr

/-- A frame: `FRAME_BYTES` bytes, `byte[0]` first (R8, R11, R65). -/
abbrev Frame := Vector Byte (reduceProj% (delta% Machine.config).frameBytes)

/-- A reading (R11): `temp_tenths` is a signed 12-bit number in two's complement, `hum` an unsigned byte. -/
structure Reading where
  tempTenths : BitVec 12
  hum : Byte
deriving DecidableEq, Repr

/-- The operations of R71, one constructor per row of the opcode table. The buffer operand of SCAN and ASSEMBLE (`buf` and
`len` of the row) is one list, index 0 first, as R25 represents the pair. -/
inductive Instr
  /-- `EDGE.L`: one event of level Low (R99). -/
  | edgeL (ts : Ts)
  /-- `EDGE.H`: one event of level High (R99). -/
  | edgeH (ts : Ts)
  /-- `RESET` (R170). -/
  | reset
  /-- `CLASSIFY` (R80). -/
  | classify (level : Level) (dur : Ts)
  /-- `SCAN` (R110). -/
  | scan (buf : List Bit)
  /-- `ASSEMBLE` (R120). -/
  | assemble (start : BitVec 7) (buf : List Bit)
  /-- `CRC8` (R130). -/
  | crc8 (b0 b1 b2 b3 : Byte)
  /-- `VERIFY` (R131). -/
  | verify (f : Frame)
  /-- `DECODE` (R140). -/
  | decode (f : Frame)
deriving DecidableEq, Repr

/-- `EDGE(level, ts)` of R99: the two `EDGE` rows are one operation, selected by the level. -/
def Instr.edge : Level → Ts → Instr
  | .low, ts => .edgeL ts
  | .high, ts => .edgeH ts

/-- What is presented to CORE for one operation: a word on the input ports (R67), or the operand word of one sub-block that
is run alone (the operand layouts of R71; log entry 5). -/
inductive Offer
  /-- `ev_valid` = 1 and `rst` = 0: the event word `E` of R60. -/
  | event (e : EventWord)
  /-- `rst` = 1, no event offered. -/
  | rst
  /-- `rst` = 1 and `ev_valid` = 1 together (R170). -/
  | rstEvent (e : EventWord)
  /-- Operand word of `CLASSIFY`: level in bit 64, `dur` below. -/
  | classify (w : BitVec 65)
  /-- Operand word of `SCAN`: `len` in bits 135..128, `buf[0]` in bit 127. -/
  | scan (w : BitVec 136)
  /-- Operand word of `ASSEMBLE`: `start` in bits 142..136, then as `SCAN`. -/
  | assemble (w : BitVec 143)
  /-- Operand word of `CRC8`: `byte[0]` in bits 31..24. -/
  | crc8 (w : BitVec 32)
  /-- Operand word of `VERIFY`: `byte[0]` in bits 39..32. -/
  | verify (w : BitVec 40)
  /-- Operand word of `DECODE`: as `VERIFY`. -/
  | decode (w : BitVec 40)
deriving DecidableEq, Repr

end Sys2Proof
end

