-- ==== Sys2Proof/WellFormed.lean ====
section
/-!
DEFINITION. Which instruction terms an operand word can hold: the buffer operand of SCAN and of ASSEMBLE has at most
`BUF_CAP` entries (R23, R71). Every other operand is bounded by its type.
-/
namespace Sys2Proof

/-- The check of one instruction term. -/
def Instr.wf : Instr → Bool
  | .edgeL _ => true
  | .edgeH _ => true
  | .reset => true
  | .classify _ _ => true
  | .scan buf => decide (buf.length ≤ Machine.config.bufCap)
  | .assemble _ buf => decide (buf.length ≤ Machine.config.bufCap)
  | .crc8 _ _ _ _ => true
  | .verify _ => true
  | .decode _ => true

end Sys2Proof
end

