-- ==== Sys2Proof/Decode.lean ====
section
/-!
DEFINITION. Reading an offered word as an operation (30_encoding.md R60 to R72), and the encoder after it.
Decoding of event words is total (R72). The only words refused are operand words of SCAN and ASSEMBLE whose `len` field is
above `BUF_CAP` = 128, which `len` cannot be (R23; log entry 11).
-/
namespace Sys2Proof

/-- Why a word is refused. -/
inductive DecodeReject
  /-- `SCAN` with a `len` field above 128. -/
  | scanLen
  /-- `ASSEMBLE` with a `len` field above 128. -/
  | assembleLen
deriving DecidableEq, Repr

/-- Bits `lo + n - 1 .. lo` of a word: the slice of R10. -/
def slice {w : Nat} (v : BitVec w) (lo n : Nat) : BitVec n := v.extractLsb' lo n

/-- The number of a level at the port (R61). -/
def Level.bit : Level → BitVec 1
  | .low => 0
  | .high => 1

/-- The level a port bit stands for (R61). -/
def Level.ofBit (b : BitVec 1) : Level := if b = 1 then .high else .low

/-- The 2-bit code of a symbol (R62). -/
def Symbol.code : Symbol → BitVec 2
  | .noise => 0
  | .shortOff => 1
  | .longOff => 2
  | .on => 3

/-- The symbol of a 2-bit code: all four codes are used (R62). -/
def Symbol.ofCode (k : BitVec 2) : Symbol :=
  if k = 0 then .noise else if k = 1 then .shortOff else if k = 2 then .longOff else .on

/-- Symbol to buffer bit (R44, R63): On and Noise have none. -/
def Symbol.bit? : Symbol → Option Bit
  | .noise => none
  | .shortOff => some true
  | .longOff => some false
  | .on => none

/-- A bit as a number of `n` bits. -/
def Bit.toVec (n : Nat) (b : Bit) : BitVec n := if b then 1 else 0

/-- The event word of R60. -/
def eventWord (level : Level) (ts : Ts) : EventWord := level.bit ++ ts

/-- `E[64]` of R60. -/
def eventLevel (e : EventWord) : Level := Level.ofBit (slice e 64 1)

/-- `E[63:0]` of R60. -/
def eventTs (e : EventWord) : Ts := slice e 0 64

/-- A frame as one 40-bit value, `byte[0]` most significant (R46). -/
def Frame.word (f : Frame) : BitVec 40 := f[0] ++ f[1] ++ f[2] ++ f[3] ++ f[4]

/-- The frame of a 40-bit value (R46). -/
def Frame.ofWord (w : BitVec 40) : Frame :=
  #v[slice w 32 8, slice w 24 8, slice w 16 8, slice w 8 8, slice w 0 8]

/-- The reading word `R` of R68: `temp_tenths` in bits 19..8, `hum` in bits 7..0. -/
def Reading.word (r : Reading) : BitVec 20 := r.tempTenths ++ r.hum

/-- The reading of a reading word (R68). -/
def Reading.ofWord (w : BitVec 20) : Reading := { tempTenths := slice w 8 12, hum := slice w 0 8 }

/-- The first `n` entries of a buffer operand, `buf[0]` the leftmost bit (table row `SCAN`). -/
def bufOfWord (n : Nat) (w : BufField) : List Bit := (List.range n).map fun i => w.getMsbD i

/-- The bits of a list shifted in at bit 0, the first one ending highest. -/
def shiftIn (n : Nat) (bits : List Bit) : BitVec n :=
  bits.foldl (fun v b => (v <<< 1) ||| Bit.toVec n b) 0

/-- The buffer operand of a list of at most `BUF_CAP` bits; the entries at and above its length are 0. -/
def wordOfBuf (m : List Bit) : BufField := shiftIn _ m <<< (Machine.config.bufCap - m.length)

/-- The operation an offered word stands for (R71, R72). `rst` wins over an event presented with it (R170). -/
def decode : Offer → Except DecodeReject Instr
  | .event e => .ok (.edge (eventLevel e) (eventTs e))
  | .rst => .ok .reset
  | .rstEvent _ => .ok .reset
  | .classify w => .ok (.classify (Level.ofBit (slice w 64 1)) (slice w 0 64))
  | .scan w =>
    let n := (slice w 128 8).toNat
    if n ≤ Machine.config.bufCap then .ok (.scan (bufOfWord n (slice w 0 128))) else .error .scanLen
  | .assemble w =>
    let n := (slice w 128 8).toNat
    if n ≤ Machine.config.bufCap then .ok (.assemble (slice w 136 7) (bufOfWord n (slice w 0 128))) else .error .assembleLen
  | .crc8 w => .ok (.crc8 (slice w 24 8) (slice w 16 8) (slice w 8 8) (slice w 0 8))
  | .verify w => .ok (.verify (Frame.ofWord w))
  | .decode w => .ok (.decode (Frame.ofWord w))

/-- The `len` field of an operand word. -/
def lenField (m : List Bit) : BitVec 8 := BitVec.ofNat 8 m.length

/-- The word of an instruction, written from the layouts of R60 and R71. -/
def encode : Instr → Offer
  | .edgeL ts => .event (eventWord .low ts)
  | .edgeH ts => .event (eventWord .high ts)
  | .reset => .rst
  | .classify level dur => .classify (level.bit ++ dur)
  | .scan buf => .scan (lenField buf ++ wordOfBuf buf)
  | .assemble start buf => .assemble (start ++ lenField buf ++ wordOfBuf buf)
  | .crc8 b0 b1 b2 b3 => .crc8 (b0 ++ b1 ++ b2 ++ b3)
  | .verify f => .verify f.word
  | .decode f => .decode f.word

/-- How many bits the opcode table gives an offered word. -/
def Offer.width : Offer → Nat
  | .event _ => 65
  | .rst => 1
  | .rstEvent _ => 65
  | .classify _ => 65
  | .scan _ => 136
  | .assemble _ => 143
  | .crc8 _ => 32
  | .verify _ => 40
  | .decode _ => 40

/-- A word of the opcode table offered where a word of that size goes: 65 bits on the event port, 1 bit on the `rst` pin, 136,
143 and 32 bits to the Preamble Scanner, the Frame Assembler and `CRC8`, 40 bits to the Checksum Validator. No bit of a table
word selects an operation (R71), so a 65-bit word is an event and never `CLASSIFY`'s operand word, and a 40-bit word is
`VERIFY`'s and never `DECODE`'s (log entry 7). `nbits` may be rounded up to whole bytes; a word with a bit beyond its size is
no table word. -/
def offerOfTableWord (nbits w : Nat) : Option Offer :=
  let nbytes := (nbits + 7) / 8
  if nbytes = 1 then (if w = 1 then some .rst else none)
  else if nbytes = 4 then (if w < 2 ^ 32 then some (.crc8 (BitVec.ofNat 32 w)) else none)
  else if nbytes = 5 then (if w < 2 ^ 40 then some (.verify (BitVec.ofNat 40 w)) else none)
  else if nbytes = 9 then (if w < 2 ^ 65 then some (.event (BitVec.ofNat 65 w)) else none)
  else if nbytes = 17 then (if w < 2 ^ 136 then some (.scan (BitVec.ofNat 136 w)) else none)
  else if nbytes = 18 then (if w < 2 ^ 143 then some (.assemble (BitVec.ofNat 143 w)) else none)
  else none

/-- The instruction the decoder reads from a word of the opcode table. -/
def decodeTableWord (nbits w : Nat) : Option Instr :=
  match offerOfTableWord nbits w with
  | none => none
  | some o =>
    match decode o with
    | .ok i => some i
    | .error _ => none

end Sys2Proof
end

