-- ==== Sys2Proof/Machine/State.lean ====
section
/-!
DEFINITION. The state of one CORE instance (10_state.md R20), the environment's offers, and what an observer of CORE sees;
the reasons a step can stop.
-/
namespace Sys2Proof.Machine

/-- The symbol buffer, `buf` and `len` as one list of at most 128 bits, index 0 the earliest symbol (R24, R25): CORE's one
address space (R40). An index at or above the length holds no value. -/
abbrev Memory := List Bit

/-- The form of the buffer: `0 <= len <= BUF_CAP` (R23). -/
abbrev Memory.wf (m : Memory) : Prop := m.length ≤ config.bufCap

/-- The outcome labels of R99, one for each of the nine paths of `EDGE`. A reading aid: no step depends on one (R156). -/
inductive Label
  | noiseEmpty
  | noPreamble
  | lenMismatch
  | crcMismatch
  | reading
  | onIgnored
  | overflow
  | append
  | prevOnly
deriving DecidableEq, Repr

/-- The reject causes of R150. -/
inductive RejectCause
  | classificationNoise
  | noPreamble
  | frameLength
  | checksum
  | overflow
deriving DecidableEq, Repr

/-- What the operation just performed answered (the model's own, log entry 6). For `EDGE` the reading is what stands on the
`rd` ports during that one transfer (R67). -/
inductive Result
  /-- Nothing was offered, or nothing has happened since reset: `rd_valid` = 0 (R171). -/
  | idle
  /-- `EDGE`: its path, and the reading it emitted, if any (R99). -/
  | edge (label : Label) (rd : Option Reading)
  /-- `RESET`: nothing is emitted (R170). -/
  | reset
  /-- Output of `CLASSIFY` (R80). -/
  | symbol (s : Symbol)
  /-- Output of `SCAN` (R110). -/
  | index (i : Option Nat)
  /-- Output of `ASSEMBLE` (R120). -/
  | frame (f : Option Frame)
  /-- Output of `CRC8` (R130). -/
  | crc (v : Byte)
  /-- Output of `VERIFY` (R131). -/
  | valid (b : Bool)
  /-- Output of `DECODE` (R140). -/
  | reading (r : Reading)
deriving DecidableEq, Repr

/-- The state. `lastTs`, `prev` and `buf` (with its length) are the four state elements of R20 and the whole of CORE's own
state; the other three fields are the model's view of the ports and of the observer. -/
structure State where
  /-- `last_ts` (R21). -/
  lastTs : Ts
  /-- `prev` (R22). -/
  prev : Symbol
  /-- `buf` and `len` (R23, R24, R25). -/
  buf : Memory
  /-- What the environment presents, the first one now, the rest in order after it (R5, R60; log entry 4). -/
  pending : List Offer
  /-- What the operation just performed answered (log entry 6). -/
  result : Result
  /-- The readings emitted, in order: the observer's list (R7). -/
  out : List Reading
deriving DecidableEq, Repr

/-- `len` of R23. -/
def State.len (s : State) : Nat := s.buf.length

/-- Reasons to stop with a fault: none. CORE raises no exception and cannot get stuck (R150, R162). -/
inductive Fault
deriving DecidableEq, Repr

/-- Reasons to refuse. -/
inductive Refusal
  /-- An instruction without a meaning: raised by no arm (every row of the opcode table has its meaning). Safe: nothing is
  claimed of it. -/
  | notModelled (mnemonic : String)
  /-- `step`, when the offered word is an operand word of `SCAN` or `ASSEMBLE` whose `len` field is above 128, a value `len`
  never has (R23; log entry 11). Safe: `EDGE` never passes such a word. -/
  | badOperandWord (r : DecodeReject)
deriving DecidableEq, Repr

/-- `LAST_TS_RESET` as a timestamp. -/
def resetTs (c : Config) : Ts := BitVec.ofNat _ c.lastTsReset

/-- The machine right after reset (R32, R171): `prev` Noise, the buffer empty, `last_ts` at `LAST_TS_RESET` (log entry 1),
`rd_valid` 0, nothing offered, nothing emitted. -/
def State.reset : State where
  lastTs := resetTs config
  prev := .noise
  buf := []
  pending := []
  result := .idle
  out := []

end Sys2Proof.Machine
end

