-- ==== Sys2Proof/Machine/Ops.lean ====
section
/-!
DEFINITION. The named operations every meaning is built from: the updates of single fields, the buffer primitives
`BufAppend`, `BufRead`, `BufClear` (20_memory.md R41 to R43), `emit` (R12), and taking the next offer.
CORE has no trap: a reject (R150) is a path of `EDGE` and has no entry operation to share (R161, R162).
-/
namespace Sys2Proof.Machine

/-- `last_ts <- ts` (R90). -/
def State.setLastTs (s : State) (ts : Ts) : State := { s with lastTs := ts }

/-- `prev <- sym` (R92, R96, R98). -/
def State.setPrev (s : State) (sym : Symbol) : State := { s with prev := sym }

/-- The buffer becomes `m`. -/
def State.setBuf (s : State) (m : Memory) : State := { s with buf := m }

/-- What the operation answers. -/
def State.setResult (s : State) (r : Result) : State := { s with result := r }

/-- What the environment presents next. -/
def State.setPending (s : State) (p : List Offer) : State := { s with pending := p }

/-- `emit(r)` of R12: one reading appended to the output list. -/
def State.emit (s : State) (r : Reading) : State := { s with out := s.out ++ [r] }

/-- `BufRead(i)` (R42): no value at or above the length. -/
def bufRead (m : Memory) (i : Nat) : Option Bit := m[i]?

/-- `BufAppend(b)` (R41): the new entry stands at index `len`. Called only with `len < BUF_CAP`. -/
def bufAppend (m : Memory) (b : Bit) : Memory := m ++ [b]

/-- `BufClear()` (R43): `len <- 0`; no entry is readable afterwards. -/
def bufClear (_m : Memory) : Memory := []

/-- `RESET` of R170 on CORE's own state, for a given configuration; it emits nothing and leaves the output list. -/
def resetCore (c : Config) (s : State) : State :=
  (((s.setPrev .noise).setBuf (bufClear s.buf)).setLastTs (resetTs c)).setResult .reset

/-- The sub-block answered; nothing else changes (R6: a pure function with no state). -/
def answer (r : Result) (s : State) : State := s.setResult r

/-- Nothing was offered: CORE waits (93_implementation_defined.md U12), and `rd_valid` is 0 (log entry 8). -/
def idle (s : State) : State := s.setResult .idle

/-- Take the first offer. An event offered together with `rst` is not consumed: it stays the next offer (R170). -/
def takeOffer (s : State) : Option (Offer × State) :=
  match s.pending with
  | [] => none
  | .rstEvent e :: rest => some (.rstEvent e, s.setPending (.event e :: rest))
  | o :: rest => some (o, s.setPending rest)

end Sys2Proof.Machine
end

