-- ==== Sys2Proof/Machine/Assembler.lean ====
section
/-!
DEFINITION. The Frame Assembler (43_frame_assembler.md).
-/
namespace Sys2Proof.Machine

/-- One step of the fold of R120: `v <- ((v << 1) mod 2^8) + bit`. -/
def foldBit (v : Byte) (b : Bit) : Byte := (v <<< 1) + Bit.toVec 8 b

/-- Byte `k` of the symbols from the frame start: eight of them, the earliest ending in bit 7 (R45, R120). -/
def byteOf (bits : List Bit) (k : Nat) : Byte := ((bits.drop (8 * k)).take 8).foldl foldBit 0

/-- The `FRAME_BYTES` bytes of the symbols from the frame start. -/
def frameOf (bits : List Bit) : Frame := Vector.ofFn fun k => byteOf bits k

/-- `ASSEMBLE(buf, len, start)` of R120: a frame if exactly `FRAME_BITS` symbols stand from `start` to the end (R121), so
none when `start` is above `len`. -/
def assemble (c : Config) (m : Memory) (start : Nat) : Option Frame :=
  if m.length = start + c.frameBits then some (frameOf (m.drop start)) else none

/-- One step of the shift register of R122: `F <- {F[38:0], bit}`. -/
def frameShift (v : BitVec 40) (b : Bit) : BitVec 40 := (v <<< 1) ||| Bit.toVec 40 b

/-- The 40-bit shift register of R122, holding `v` before, after the bits from `start` to the end have gone in. -/
def assembleShift (v : BitVec 40) (m : Memory) (start : Nat) : BitVec 40 := (m.drop start).foldl frameShift v

/-- `byte[k]` of a frame (R11); 0 where there is no such byte. -/
def frameByte (f : Frame) (k : Nat) : Byte := f[k]?.getD 0

/-- Meaning of `ASSEMBLE`. -/
def execAssemble (start : BitVec 7) (buf : List Bit) (s : State) : Host.Outcome State Fault Refusal :=
  .next (answer (.frame (assemble config buf start.toNat)) s)

end Sys2Proof.Machine
end

