-- ==== Sys2Proof/Machine/Checksum.lean ====
section
/-!
DEFINITION. The Checksum Validator (44_checksum_validator.md).
-/
namespace Sys2Proof.Machine

/-- One bit step of R130 on the pair (`crc`, `b`): `mix` from the old values, then the shift of `crc`, then the XOR, then the
shift of `b`. -/
def crcBit (c : Config) (p : Byte × Byte) : Byte × Byte :=
  let mix := (p.1 ^^^ p.2) &&& 0x80
  let shifted := p.1 <<< 1
  (if mix ≠ 0 then shifted ^^^ c.crcPoly else shifted, p.2 <<< 1)

/-- Eight bit steps: one byte (R130). -/
def crcByte (c : Config) (crc b : Byte) : Byte :=
  ((List.range 8).foldl (fun p _ => crcBit c p) (crc, b)).1

/-- The loop of R130 over any number of bytes. -/
def crcBytes (c : Config) (bytes : List Byte) : Byte := bytes.foldl (crcByte c) c.crcInit

/-- `CRC8(b0, b1, b2, b3)` of R130: the loop over the first `CRC_LEN` of its operands, which are all four. -/
def crc8 (c : Config) (b0 b1 b2 b3 : Byte) : Byte := crcBytes c ([b0, b1, b2, b3].take c.crcLen)

/-- `VERIFY(f)` of R131: the checksum is the byte after those `CRC8` covers. -/
def verify (c : Config) (f : Frame) : Bool := decide (f[c.crcLen]? = some (crc8 c f[0] f[1] f[2] f[3]))

/-- Meaning of `CRC8`. -/
def execCrc8 (b0 b1 b2 b3 : Byte) (s : State) : Host.Outcome State Fault Refusal :=
  .next (answer (.crc (crc8 config b0 b1 b2 b3)) s)

/-- Meaning of `VERIFY`. -/
def execVerify (f : Frame) (s : State) : Host.Outcome State Fault Refusal :=
  .next (answer (.valid (verify config f)) s)

end Sys2Proof.Machine
end

