-- ==== Sys2Proof/Machine/Classifier.lean ====
section
/-!
DEFINITION. The Pulse Classifier (40_pulse_classifier.md).
-/
namespace Sys2Proof.Machine

/-- A duration in microseconds, the unit of the windows (R8: `TS_UNIT`). -/
def micros (c : Config) (dur : Ts) : Nat := dur.toNat * c.tsUnit

/-- The window around a nominal duration (R80): the lower end is inside; the upper end is inside where `UPPER_INCLUSIVE`
holds (R82). -/
def inWindow (c : Config) (nominal : Nat) (dur : Ts) : Bool :=
  decide (nominal - c.jitter ≤ micros c dur) &&
    (if c.upperInclusive then decide (micros c dur ≤ nominal + c.jitter) else decide (micros c dur < nominal + c.jitter))

/-- `CLASSIFY(level, dur)` of R80. -/
def classify (c : Config) (level : Level) (dur : Ts) : Symbol :=
  match level with
  | .low =>
    if inWindow c c.tShort dur then .shortOff
    else if inWindow c c.tLong dur then .longOff
    else .noise
  | .high => if inWindow c c.tOn dur then .on else .noise

/-- Meaning of `CLASSIFY`. -/
def execClassify (level : Level) (dur : Ts) (s : State) : Host.Outcome State Fault Refusal :=
  .next (answer (.symbol (classify config level dur)) s)

end Sys2Proof.Machine
end

