-- ==== Sys2Proof/Machine/FieldDecoder.lean ====
section
/-!
DEFINITION. The Field Decoder (45_field_decoder.md).
-/
namespace Sys2Proof.Machine

/-- The magnitude of R140, 11 bits: `((byte[1] AND 0x07) << 8) + byte[2]`, which cannot carry (R145). -/
def magnitude (f : Frame) : BitVec 11 :=
  ((f[1] &&& 0x07).zeroExtend 11 <<< 8) + f[2].zeroExtend 11

/-- The sign bit of R140: `byte[1] AND 0x08` is not zero. -/
def negative (f : Frame) : Bool := decide (f[1] &&& 0x08 ≠ 0)

/-- `DECODE(f)` of R140: negation is two's complement at 12 bits (R145), so there is no negative zero (R141); the humidity is
not clamped (R142). -/
def decodeFrame (f : Frame) : Reading :=
  let mag := (magnitude f).zeroExtend 12
  { tempTenths := if negative f then 0 - mag else mag, hum := f[3] }

/-- Meaning of `DECODE`. -/
def execDecode (f : Frame) (s : State) : Host.Outcome State Fault Refusal :=
  .next (answer (.reading (decodeFrame f)) s)

end Sys2Proof.Machine
end

