-- ==== Sys2Proof/Machine/Flags.lean ====
section
/-!
DEFINITION. `prev` as CORE's only predicate (10_state.md R30): the gate that decides whether an event is a candidate data
symbol (41_edge_state_machine.md R93). CORE has no flags register.
-/
namespace Sys2Proof.Machine

/-- The gate of R93, on `prev` as it was before the `EDGE`. -/
def gateOpen (prev : Symbol) : Bool := decide (prev = .on)

end Sys2Proof.Machine
end

