-- ==== Sys2Proof/Machine/Operands.lean ====
section
/-!
DEFINITION. The one operand of CORE that is assembled rather than taken as it is (30_encoding.md R69).
-/
namespace Sys2Proof.Machine

/-- `dur = (ts - last_ts) mod 2^TS_WIDTH` (R69, R90): unsigned and wrapping. -/
def duration (ts lastTs : Ts) : Ts := ts - lastTs

end Sys2Proof.Machine
end

