-- ==== Sys2Proof/Machine/Scanner.lean ====
section
/-!
DEFINITION. The Preamble Scanner (42_preamble_scanner.md).
-/
namespace Sys2Proof.Machine

/-- `PREAMBLE` as buffer bits (R64). -/
def preambleBits (c : Config) : List Bit := c.preamble.filterMap Symbol.bit?

/-- The preamble stands at index `i`: `BufRead(i + k) = PREAMBLE[k]` for every `k` (R110). -/
def matchAt (c : Config) (m : Memory) (i : Nat) : Bool :=
  (List.range c.preLen).all fun k => decide (bufRead m (i + k) = (preambleBits c)[k]?)

/-- `SCAN(buf, len)` of R110: the lowest matching index. -/
def scan (c : Config) (m : Memory) : Option Nat :=
  if m.length < c.preLen then none
  else (List.range (m.length - c.preLen + 1)).find? (matchAt c m)

/-- The other way R114 gives to build the scanner: an 8-bit shift register of the latest bits, and the first index at which it
equals the preamble. `n` bits have gone in since the clear, `r` holds the latest of them. DESIGN CHOICE (log entry 22): R114 does
not say what stale bits of the register may do after a clear; here a hit counts only once `PRE_LEN` bits have gone in. -/
def scanShiftFrom (c : Config) : Memory → Nat → Byte → Option Nat
  | [], _, _ => none
  | b :: rest, n, r =>
    let r' := (r <<< 1) ||| Bit.toVec 8 b
    if c.preLen ≤ n + 1 ∧ r' = shiftIn 8 (preambleBits c) then some (n + 1 - c.preLen)
    else scanShiftFrom c rest (n + 1) r'

/-- The shift-register scanner of R114 over a whole buffer. DESIGN CHOICE (log entry 22): the register starts each buffer at 0,
since R114 clears only the note with the buffer. -/
def scanShift (c : Config) (m : Memory) : Option Nat := scanShiftFrom c m 0 0

/-- Meaning of `SCAN`. -/
def execScan (buf : List Bit) (s : State) : Host.Outcome State Fault Refusal :=
  .next (answer (.index (scan config buf)) s)

end Sys2Proof.Machine
end

