-- ==== Sys2Proof/Machine/Edge.lean ====
section
/-!
DEFINITION. The Edge Stream State Machine (41_edge_state_machine.md): `EDGE` as the pseudocode of R99 has it, and its two rows.
-/
namespace Sys2Proof.Machine

/-- The decode attempt of R97: the lowest match only, then the length, then the checksum (R160). -/
def tryDecode (c : Config) (m : Memory) : Except RejectCause Reading :=
  match scan c m with
  | none => .error .noPreamble
  | some i =>
    match assemble c m (i + c.frameOff) with
    | none => .error .frameLength
    | some f => if verify c f then .ok (decodeFrame f) else .error .checksum

/-- The label of the path on which a cause is met (table of R150). -/
def causeLabel : RejectCause → Label
  | .classificationNoise => .noiseEmpty
  | .noPreamble => .noPreamble
  | .frameLength => .lenMismatch
  | .checksum => .crcMismatch
  | .overflow => .overflow

/-- `BufClear(); prev <- Noise`, the end of the Noise path (R92). -/
def resync (s : State) : State := (s.setBuf (bufClear s.buf)).setPrev .noise

/-- The Noise path of R92: one attempt if the buffer holds anything; then, whatever it gave, the buffer is cleared. -/
def noisePath (c : Config) (s : State) : State :=
  if s.len > 0 then
    match tryDecode c s.buf with
    | .ok r => ((resync s).emit r).setResult (.edge .reading (some r))
    | .error cause => (resync s).setResult (.edge (causeLabel cause) none)
  else (resync s).setResult (.edge .noiseEmpty none)

/-- A data symbol after On, as the bit it stands for (R95, R96): appended below capacity, dropped with the whole buffer at
capacity; then `prev` stays On. -/
def dataPath (c : Config) (sym : Symbol) (b : Bit) (s : State) : State :=
  if s.len = c.bufCap then (s.setBuf (bufClear s.buf)).setResult (.edge .overflow none)
  else ((s.setBuf (bufAppend s.buf b)).setPrev sym).setResult (.edge .append none)

/-- `EDGE` after its classification (R92 to R98), on the state whose `last_ts` is already written. -/
def edgeSymbol (c : Config) (sym : Symbol) (s : State) : State :=
  match sym with
  | .noise => noisePath c s
  | .on =>
    if gateOpen s.prev then s.setResult (.edge .onIgnored none)
    else (s.setPrev .on).setResult (.edge .prevOnly none)
  | .shortOff =>
    if gateOpen s.prev then dataPath c .shortOff true s
    else (s.setPrev .shortOff).setResult (.edge .prevOnly none)
  | .longOff =>
    if gateOpen s.prev then dataPath c .longOff false s
    else (s.setPrev .longOff).setResult (.edge .prevOnly none)

/-- `EDGE(level, ts)` of R99. -/
def edge (c : Config) (level : Level) (ts : Ts) (s : State) : State :=
  edgeSymbol c (classify c level (duration ts s.lastTs)) (s.setLastTs ts)

/-- Meaning of `EDGE.L`. -/
def execEdgeL (ts : Ts) (s : State) : Host.Outcome State Fault Refusal := .next (edge config .low ts s)

/-- Meaning of `EDGE.H`. -/
def execEdgeH (ts : Ts) (s : State) : Host.Outcome State Fault Refusal := .next (edge config .high ts s)

end Sys2Proof.Machine
end

