-- ==== Sys2Proof/Machine/Reset.lean ====
section
/-!
DEFINITION. `RESET` (70_reset_and_hazards.md R170).
-/
namespace Sys2Proof.Machine

/-- Meaning of `RESET`. -/
def execReset (s : State) : Host.Outcome State Fault Refusal := .next (resetCore config s)

end Sys2Proof.Machine
end

