-- ==== Sys2Proof/Machine/Dispatch.lean ====
section
/-! DEFINITION. One arm per row of the opcode table. -/
namespace Sys2Proof.Machine

def exec (i : Instr) (s : State) : Host.Outcome State Fault Refusal :=
  match i with
  | .edgeL ts => Sys2Proof.Machine.execEdgeL ts s
  | .edgeH ts => Sys2Proof.Machine.execEdgeH ts s
  | .reset => Sys2Proof.Machine.execReset s
  | .classify level dur => Sys2Proof.Machine.execClassify level dur s
  | .scan buf => Sys2Proof.Machine.execScan buf s
  | .assemble start buf => Sys2Proof.Machine.execAssemble start buf s
  | .crc8 b0 b1 b2 b3 => Sys2Proof.Machine.execCrc8 b0 b1 b2 b3 s
  | .verify f => Sys2Proof.Machine.execVerify f s
  | .decode f => Sys2Proof.Machine.execDecode f s

end Sys2Proof.Machine
end

