-- ==== Sys2Proof/Machine/Step.lean ====
section
/-!
DEFINITION. One step: the first offer is taken, read and performed; with nothing offered CORE waits.
-/
namespace Sys2Proof.Machine

/-- One operation, to completion (R5). -/
def step (s : State) : Host.Outcome State Fault Refusal :=
  match takeOffer s with
  | none => .next (idle s)
  | some (o, s') =>
    match decode o with
    | .ok i => exec i s'
    | .error r => .refused (.badOperandWord r)

/-- `s` with a word of the opcode table offered first (log entry 4); unchanged if no port takes the word. -/
def State.withFetchWord (s : State) (nbits w : Nat) : State :=
  match offerOfTableWord nbits w with
  | none => s
  | some o => s.setPending (o :: s.pending)

end Sys2Proof.Machine
end

