-- ==== Sys2Proof/Machine/Lines.lean ====
section
/-!
DEFINITION. Several monitored lines (10_state.md R31, 60_exceptions.md R166): independent instances side by side, sharing
only the configuration.
-/
namespace Sys2Proof.Machine

/-- One instance per line. -/
abbrev Lines := List State

/-- An event on line `k` touches the instance of line `k` only (R31). -/
def edgeLine (c : Config) (k : Nat) (level : Level) (ts : Ts) (ls : Lines) : Lines := ls.modify k (edge c level ts)

/-- `RESET` of the instance of line `k`. -/
def resetLine (c : Config) (k : Nat) (ls : Lines) : Lines := ls.modify k (resetCore c)

end Sys2Proof.Machine
end

