-- ==== Sys2Proof/Machine/Run.lean ====
section
/-!
DEFINITION. A run of CORE (00_scope.md R7, 70_reset_and_hazards.md R185): a finite list of events applied in order from a
start state, observed by the readings it emits.
-/
namespace Sys2Proof.Machine

/-- One event word consumed (R60, R99). -/
def consume (c : Config) (s : State) (e : EventWord) : State := edge c (eventLevel e) (eventTs e) s

/-- The state after a list of events; nothing is flushed at the end (R185). -/
def runEvents (c : Config) (s : State) (events : List EventWord) : State := events.foldl (consume c) s

/-- The observation of a run (R7): the readings it appended, in order. -/
def readings (c : Config) (s : State) (events : List EventWord) : List Reading :=
  (runEvents c s events).out.drop s.out.length

end Sys2Proof.Machine
end

