-- ==== Sys2Proof/Machine/Trace.lean ====
section
/-!
DEFINITION. The trace notation of 30_encoding.md R74, R75, for event streams whose times are relative.
-/
namespace Sys2Proof.Machine

/-- A primitive item of R74: one event, `d` microseconds after the one before. -/
inductive TraceItem
  /-- `H <d>`. -/
  | h (d : Ts)
  /-- `L <d>`. -/
  | l (d : Ts)
deriving DecidableEq, Repr

/-- The level of an item. -/
def itemLevel : TraceItem → Level
  | .h _ => .high
  | .l _ => .low

/-- The duration of an item. -/
def itemDur : TraceItem → Ts
  | .h d => d
  | .l d => d

/-- The event words of a trace that starts at time `t` (R74): each item's time is the one before plus `d`, mod 2^64. -/
def traceEvents : Ts → List TraceItem → List EventWord
  | _, [] => []
  | t, x :: rest => eventWord (itemLevel x) (t + itemDur x) :: traceEvents (t + itemDur x) rest

/-- `BIT b` of R75. -/
def bitItems (b : Bit) : List TraceItem := if b then [.h 1000, .l 500] else [.h 1000, .l 1500]

/-- `BITS b b b ...`. -/
def bitsItems (bits : List Bit) : List TraceItem := bits.flatMap bitItems

/-- The bits of a byte, bit 7 first. -/
def byteBits (v : Byte) : List Bit := (List.range 8).map fun j => v.getMsbD j

/-- `BYTE 0xNN`. -/
def byteItems (v : Byte) : List TraceItem := bitsItems (byteBits v)

/-- `PRE`. -/
def preItems : List TraceItem := bitsItems [true, true, true, true, false, true, false, false]

/-- `GAP`. -/
def gapItems : List TraceItem := [.h 5000]

/-- `SYNC`. -/
def syncItems : List TraceItem := gapItems ++ gapItems

/-- `REPEAT n` of a body. -/
def repeatItems (n : Nat) (body : List TraceItem) : List TraceItem := (List.replicate n body).flatten

/-- The 40 bits of a frame in arrival order (R45, R46). -/
def frameBitList (f : Frame) : List Bit :=
  f.toList.flatMap byteBits

/-- A transmission of a frame as R70 describes it: the first half of the preamble, then the 40 bits of the frame, whose first
four are the second half (R66). -/
def transmission (f : Frame) : List TraceItem := bitsItems ([true, true, true, true] ++ frameBitList f)

/-- A pulse train: On intervals and Off intervals in turn, with the durations of the list. -/
def pulseItems (pulses : List (Ts × Ts)) : List TraceItem := pulses.flatMap fun p => [.h p.1, .l p.2]

/-- A pulse train whose every pair is an On and then the data symbol of the next bit of `bits`, each anywhere inside its
window (R80, R44). -/
def carries (c : Config) (bits : List Bit) (pulses : List (Ts × Ts)) : Prop :=
  (pulses.map fun p => (classify c .high p.1, (classify c .low p.2).bit?)) = bits.map fun b => (.on, some b)

end Sys2Proof.Machine
end

