-- ==== Sys2Proof/Machine/Ports.lean ====
section
/-!
DEFINITION. The ports of 30_encoding.md R67, read off the state: the input ports from the first offer, the output ports from
what the operation just performed answered. The rules are stated on operations (D8); no step reads these.
-/
namespace Sys2Proof.Machine

/-- `rst`. -/
def State.rst (s : State) : Bool :=
  match s.pending with
  | .rst :: _ => true
  | .rstEvent _ :: _ => true
  | _ => false

/-- The event word on `ev_level` and `ev_ts`, where one is offered. -/
def State.offeredEvent (s : State) : Option EventWord :=
  match s.pending with
  | .event e :: _ => some e
  | .rstEvent e :: _ => some e
  | _ => none

/-- `ev_valid`. -/
def State.evValid (s : State) : Bool := s.offeredEvent.isSome

/-- `ev_ready`: 0 while `rst` is 1 (R170); otherwise CORE is between operations and can take an event (log entry 9). -/
def State.evReady (s : State) : Bool := !s.rst

/-- The reading on the `rd` ports: there for the one transfer of the `EDGE` that emitted it. -/
def State.rdPort (s : State) : Option Reading :=
  match s.result with
  | .edge _ rd => rd
  | _ => none

/-- `rd_valid`. -/
def State.rdValid (s : State) : Bool := s.rdPort.isSome

/-- `rd_temp_tenths`, where `rd_valid` = 1: bits 19..8 of the reading word (R68). -/
def State.rdTempTenths (s : State) : Option (BitVec 12) := s.rdPort.map fun r => slice r.word 8 12

/-- `rd_hum`, where `rd_valid` = 1: bits 7..0 of the reading word (R68). -/
def State.rdHum (s : State) : Option Byte := s.rdPort.map fun r => slice r.word 0 8

/-- `len` as the 8-bit register of R23. -/
def State.lenReg (s : State) : BitVec 8 := BitVec.ofNat 8 s.len

/-- `prev` as the 2-bit register of R22. -/
def State.prevReg (s : State) : BitVec 2 := s.prev.code

end Sys2Proof.Machine
end

