-- ==== Sys2Proof/Safety.lean ====
section
/-!
DEFINITION. What the claims call safe: the invariant of CORE's state (10_state.md R26, 41_edge_state_machine.md R103,
30_encoding.md R68), the terms of the checksum claims (R132), and the events that are offered.
-/
namespace Sys2Proof.Machine

/-- A reading the output can carry: `temp_tenths` is never `0x800` (R68). -/
abbrev readingLegal (r : Reading) : Prop := r.tempTenths ≠ 0x800

/-- What every reachable state satisfies: the buffer has at most 128 entries (R23); after a Noise nothing is buffered (R92);
every reading emitted is legal (R68); and a reading on the `rd` ports is the last one emitted (R67). -/
structure State.Inv (s : State) : Prop where
  bufBounded : Memory.wf s.buf
  noiseEmpty : s.prev = .noise → s.buf = []
  outLegal : ∀ r ∈ s.out, readingLegal r
  rdIsLast : ∀ r, s.rdPort = some r → s.out.getLast? = some r

/-- One step of the long division of R132 by `x^8 + x^5 + x^4 + 1`: the next bit comes in at the low end of the remainder, and
the generator is taken off where `x^8` appears. -/
def divisionStep (r : BitVec 9) (b : Bit) : BitVec 9 :=
  let r' := (r <<< 1) ||| Bit.toVec 9 b
  if r'.getLsbD 8 then r' ^^^ 0x131 else r'

/-- The remainder of a 40-bit polynomial, highest power first, by the generator of R132. -/
def remainder (w : BitVec 40) : BitVec 8 :=
  slice (((List.range 40).map fun i => w.getMsbD i).foldl divisionStep 0) 0 8

/-- Two frames' bits added without carry, byte by byte. -/
def frameXor (f g : Frame) : Frame := Vector.zipWith (· ^^^ ·) f g

/-- An error pattern confined to 8 consecutive bits of the 40-bit frame: `p` placed with its lowest bit at bit `k` (R132 d). -/
def burst (p : Byte) (k : Nat) : Frame := Frame.ofWord (p.zeroExtend 40 <<< k)

/-- The event word an offer presents, with or without `rst` (R60, R170). -/
def Offer.event? : Offer → Option EventWord
  | .event e => some e
  | .rstEvent e => some e
  | _ => none

/-- The events that are offered now and next, in order. -/
def offeredEvents (p : List Offer) : List EventWord := p.filterMap Offer.event?

end Sys2Proof.Machine
end

