-- ==== Sys2Proof/Certificates/Slice0/Obligations.lean ====
section
/-!
DEFINITION. The statements for the provers. `Instr.edge level ts` is `EDGE.L` at level low and `EDGE.H` at level high, so a
statement for every `level` is about both rows. No operation of CORE changes what is offered (`pending`), and the buffer is its
only memory: "every byte of memory" is every index of the buffer, read by `bufRead`.
-/
open Sys2Proof
open Sys2Proof.Machine

/-! ### Encoding -/

/-- R60, R71: an instruction written as its word decodes to itself, every operand at every value. -/
def Obligations.DecodeOfEncodeIsInstruction : Prop :=
  ∀ i : Instr, i.wf = true → decode (encode i) = .ok i

/-- R60, R61, R72: every one of the 2^65 event words is an `EDGE` of the level in bit 64 (1 is High) and the timestamp in the
64 bits below, and is the word of that `EDGE`. -/
def Obligations.EveryEventWordIsAnEdge : Prop :=
  ∀ e : EventWord,
    decode (.event e) = .ok (.edge (if e.getLsbD 64 then .high else .low) (e.setWidth 64)) ∧
    encode (.edge (if e.getLsbD 64 then .high else .low) (e.setWidth 64)) = .event e

/-- R71: the operand words of CLASSIFY, CRC8, VERIFY and DECODE lose no bit in decoding. -/
def Obligations.OperandWordsKeepEveryBit : Prop :=
  (∀ w : BitVec 65, ∃ level dur, decode (.classify w) = .ok (.classify level dur) ∧
    encode (.classify level dur) = .classify w) ∧
  (∀ w : BitVec 32, ∃ b0 b1 b2 b3, decode (.crc8 w) = .ok (.crc8 b0 b1 b2 b3) ∧ encode (.crc8 b0 b1 b2 b3) = .crc8 w) ∧
  (∀ w : BitVec 40, ∃ f, decode (.verify w) = .ok (.verify f) ∧ encode (.verify f) = .verify w) ∧
  (∀ w : BitVec 40, ∃ f, decode (.decode w) = .ok (.decode f) ∧ encode (.decode f) = .decode w)

/-- R71: a SCAN word with `len` at most 128 is SCAN of its first `len` buffer bits, `buf[0]` leftmost; with `len` above 128 it
is refused (the model's choice, log entry 11). -/
def Obligations.ScanWordReadsItsFirstLenBits : Prop :=
  ∀ w : BitVec 136,
    ((w >>> 128).toNat ≤ 128 → ∃ m, decode (.scan w) = .ok (.scan m) ∧ m.length = (w >>> 128).toNat ∧
      ∀ k, k < m.length → bufRead m k = some (w.getLsbD (127 - k))) ∧
    (128 < (w >>> 128).toNat → decode (.scan w) = .error .scanLen)

/-- R71: the same for an ASSEMBLE word, whose `start` is the 7 bits above `len` (refusal: log entry 11). -/
def Obligations.AssembleWordReadsItsFirstLenBits : Prop :=
  ∀ w : BitVec 143,
    ((w >>> 128).toNat % 256 ≤ 128 → ∃ start m, decode (.assemble w) = .ok (.assemble start m) ∧
      start.toNat = (w >>> 136).toNat ∧ m.length = (w >>> 128).toNat % 256 ∧
      ∀ k, k < m.length → bufRead m k = some (w.getLsbD (127 - k))) ∧
    (128 < (w >>> 128).toNat % 256 → decode (.assemble w) = .error .assembleLen)

/-- Whatever decodes is well formed. -/
def Obligations.DecodedInstructionsAreWellFormed : Prop :=
  ∀ (o : Offer) (i : Instr), decode o = .ok i → i.wf = true

/-- Words written out from R60, R65, R71 and 95_test_vectors.md P1, A1, S3 decode to what they stand for. -/
def Obligations.WrittenOutWordsDecode : Prop :=
  decode (.event 0x10000000000001388) = .ok (.edgeH 5000) ∧
  decode (.event 0x00000000000002CEC) = .ok (.edgeL 11500) ∧
  decode .rst = .ok .reset ∧
  decode (.classify 0x100000000000002EE) = .ok (.classify .high 750) ∧
  decode (.scan 0x08F4000000000000000000000000000000) =
    .ok (.scan [true, true, true, true, false, true, false, false]) ∧
  decode (.assemble 0x0403A0000000000000000000000000000000) = .ok (.assemble 4 [true, false, true]) ∧
  decode (.crc8 0xF8000032) = .ok (.crc8 0xF8 0x00 0x00 0x32) ∧
  decode (.verify 0x4A810A5A23) = .ok (.verify #v[0x4A, 0x81, 0x0A, 0x5A, 0x23]) ∧
  decode (.decode 0x4A890A5A71) = .ok (.decode #v[0x4A, 0x89, 0x0A, 0x5A, 0x71])

/-- R62: the four symbols have the codes 0 to 3, and each code is a symbol. -/
def Obligations.SymbolCodesAreAllUsed : Prop :=
  Symbol.code .noise = 0 ∧ Symbol.code .shortOff = 1 ∧ Symbol.code .longOff = 2 ∧ Symbol.code .on = 3 ∧
  (∀ s : Symbol, Symbol.ofCode s.code = s) ∧ (∀ k : BitVec 2, (Symbol.ofCode k).code = k)

/-! ### The step -/

/-- With `o` offered first and decoding to `i`, a step is `exec i` on the state whose offers are what follows `o`; an event
presented together with `rst` stays offered (R170). -/
def Obligations.StepRunsTheOfferedInstruction : Prop :=
  ∀ (s : State) (o : Offer) (rest : List Offer) (i : Instr), s.pending = o :: rest → decode o = .ok i →
    i.wf = true ∧
    step s = exec i { s with pending := match o with | .rstEvent e => .event e :: rest | _ => rest }

/-- A table word the decoder reads as `i` runs as `i`, and the offers that stood before it stand after it. -/
def Obligations.TableWordRunsAsTheNextInstruction : Prop :=
  ∀ (s : State) (nbits w : Nat) (i : Instr), decodeTableWord nbits w = some i →
    step (s.withFetchWord nbits w) = exec i s

/-- With nothing offered CORE waits: nothing is flushed, and no reading is on the ports (the model's choice of a step that
waits is log entry 8). -/
def Obligations.NothingOfferedChangesNothing : Prop :=
  ∀ s : State, s.pending = [] → step s = .next { s with result := .idle }

/-- R170: `rst` presented together with an event performs RESET and does not consume the event, and `ev_ready` is 0. -/
def Obligations.ResetWinsOverAnOfferedEvent : Prop :=
  ∀ (s : State) (e : EventWord) (rest : List Offer), s.pending = .rstEvent e :: rest →
    s.evReady = false ∧
    step s = .next { s with lastTs := resetTs config, prev := .noise, buf := [], result := .reset,
                            pending := .event e :: rest }

/-- R67: an event is consumed, and one EDGE performed, exactly when `ev_valid` and `ev_ready` are both 1. Where they are, a step
is the EDGE of the offered event, which is then no longer offered. Where they are not, a step that answers a next state performs
no EDGE, emits nothing, and leaves every event offered that was (one presented together with `rst` among them). That `ev_ready` is
1 whenever `rst` is 0 is the model's choice, log entry 9; that waiting is a step is log entry 8. -/
def Obligations.EventConsumedExactlyWhenValidAndReady : Prop :=
  ∀ s : State,
    (s.evReady = true ↔ s.rst = false) ∧
    ((s.evValid = true ∧ s.evReady = true) ↔ ∃ e rest, s.pending = .event e :: rest) ∧
    (∀ e rest, s.pending = .event e :: rest →
      step s = .next (edge config (eventLevel e) (eventTs e) { s with pending := rest }) ∧
      (edge config (eventLevel e) (eventTs e) { s with pending := rest }).pending = rest) ∧
    (¬(s.evValid = true ∧ s.evReady = true) → ∀ t, step s = .next t →
      offeredEvents t.pending = offeredEvents s.pending ∧ t.out = s.out ∧ ∀ label rd, t.result ≠ .edge label rd)

/-- R67: `rd_valid` is 1 after a step exactly when that step emitted a reading, and the ports then carry that reading. -/
def Obligations.ReadingPortsValidForOneTransfer : Prop :=
  ∀ s t : State, step s = .next t →
    (t.rdValid = true ↔ t.out ≠ s.out) ∧
    ∀ r, t.rdPort = some r → t.out = s.out ++ [r] ∧ t.rdTempTenths = some r.tempTenths ∧ t.rdHum = some r.hum

/-- CORE has no fault and no stuck state: a step answers a next state if and only if the first offer is not an operand word of
SCAN or ASSEMBLE with its `len` field above 128, on which it refuses (the model's choice, log entry 11). That a step with nothing
offered answers one (waits) is log entry 8. -/
def Obligations.StepStopsOnlyOnBadOperandWords : Prop :=
  ∀ s : State,
    ((∃ t, step s = .next t) ↔
      (∀ w rest, s.pending = .scan w :: rest → (w >>> 128).toNat ≤ 128) ∧
      (∀ w rest, s.pending = .assemble w :: rest → (w >>> 128).toNat % 256 ≤ 128)) ∧
    (∀ w rest, s.pending = .scan w :: rest → 128 < (w >>> 128).toNat → step s = .refused (.badOperandWord .scanLen)) ∧
    (∀ w rest, s.pending = .assemble w :: rest → 128 < (w >>> 128).toNat % 256 →
      step s = .refused (.badOperandWord .assembleLen))

/-! ### CLASSIFY -/

/-- R80, with the literals of the document. -/
def Obligations.ClassifyFollowsTheWindows : Prop :=
  ∀ (level : Level) (dur : Ts) (s : State),
    exec (.classify level dur) s = .next { s with result := .symbol (match level with
      | .low => if 250 ≤ dur.toNat ∧ dur.toNat ≤ 750 then .shortOff
                else if 1250 ≤ dur.toNat ∧ dur.toNat ≤ 1750 then .longOff else .noise
      | .high => if 750 ≤ dur.toNat ∧ dur.toNat ≤ 1250 then .on else .noise) }

/-- R82: the inclusive and the half-open reading differ at exactly three inputs, which are Noise under the half-open one. -/
def Obligations.UpperEndpointsAreTheOnlyDifference : Prop :=
  ∀ (level : Level) (dur : Ts),
    (classify { config with upperInclusive := true } level dur ≠ classify { config with upperInclusive := false } level dur ↔
      (level = .low ∧ (dur = 750 ∨ dur = 1750)) ∨ (level = .high ∧ dur = 1250)) ∧
    ((level = .low ∧ (dur = 750 ∨ dur = 1750)) ∨ (level = .high ∧ dur = 1250) →
      classify { config with upperInclusive := false } level dur = .noise)

/-- R83, for both values of `UPPER_INCLUSIVE`. -/
def Obligations.HalfOpenWindowsHoldUnderBothReadings : Prop :=
  ∀ (upper : Bool) (dur : Ts),
    (250 ≤ dur.toNat → dur.toNat < 750 → classify { config with upperInclusive := upper } .low dur = .shortOff) ∧
    (1250 ≤ dur.toNat → dur.toNat < 1750 → classify { config with upperInclusive := upper } .low dur = .longOff) ∧
    (750 ≤ dur.toNat → dur.toNat < 1250 → classify { config with upperInclusive := upper } .high dur = .on) ∧
    (¬(250 ≤ dur.toNat ∧ dur.toNat ≤ 750) → ¬(1250 ≤ dur.toNat ∧ dur.toNat ≤ 1750) →
      classify { config with upperInclusive := upper } .low dur = .noise) ∧
    (¬(750 ≤ dur.toNat ∧ dur.toNat ≤ 1250) → classify { config with upperInclusive := upper } .high dur = .noise)

/-! ### SCAN -/

/-- R110: the closed form, with `PREAMBLE` as the buffer bits of R64. -/
def Obligations.ScanFindsTheLowestMatch : Prop :=
  ∀ (buf : List Bit) (s : State),
    exec (.scan buf) s = .next { s with result := .index (scan config buf) } ∧
    ∀ i, scan config buf = some i ↔
      8 ≤ buf.length ∧ i ≤ buf.length - 8 ∧
      (∀ k, k < 8 → bufRead buf (i + k) = [true, true, true, true, false, true, false, false][k]?) ∧
      ∀ j, j < i → ¬∀ k, k < 8 → bufRead buf (j + k) = [true, true, true, true, false, true, false, false][k]?

/-- R114: the shift-register scanner is the same function of the buffer. That the register starts each buffer at 0 and that a hit
counts only once 8 bits have gone in are the model's choice, log entry 22. -/
def Obligations.ShiftRegisterScannerAgrees : Prop :=
  ∀ m : Memory, scanShift config m = scan config m

/-- R111: two matches in one buffer are at least 8 indices apart. -/
def Obligations.PreambleMatchesAreEightApart : Prop :=
  ∀ (m : Memory) (i j : Nat), matchAt config m i = true → matchAt config m j = true → i < j → i + 8 ≤ j

/-- R103, R110: a hit lies at least 8 entries before the end; a frame assembled 4 after it makes the length `i + 44`. -/
def Obligations.ScanHitBounds : Prop :=
  ∀ (m : Memory) (i : Nat), Memory.wf m → scan config m = some i →
    i + 8 ≤ m.length ∧ i ≤ 120 ∧ ∀ f, assemble config m (i + config.frameOff) = some f → m.length = i + 44 ∧ i ≤ 84

/-! ### ASSEMBLE -/

/-- R120, R121: a frame exactly when 40 symbols stand from `start` to the end, and then bit `7 - j` of `byte[k]` is
`buf[start + 8k + j]`. -/
def Obligations.AssembleTakesExactlyFortySymbols : Prop :=
  ∀ (start : BitVec 7) (buf : List Bit) (s : State),
    exec (.assemble start buf) s = .next { s with result := .frame (assemble config buf start.toNat) } ∧
    (assemble config buf start.toNat = none ↔ buf.length ≠ start.toNat + 40) ∧
    ∀ f, assemble config buf start.toNat = some f → ∀ k j, k < 5 → j < 8 →
      bufRead buf (start.toNat + 8 * k + j) = some ((frameByte f k).getLsbD (7 - j))

/-- R123: whatever frame the 40 symbols spell is the frame that is assembled, at every start. -/
def Obligations.AssembleReproducesEveryFrame : Prop :=
  ∀ (f : Frame) (buf : List Bit) (start : Nat), buf.length = start + 40 →
    (∀ k j, k < 5 → j < 8 → bufRead buf (start + 8 * k + j) = some ((frameByte f k).getLsbD (7 - j))) →
    assemble config buf start = some f

/-- R122: the 40-bit shift register gives the same frame, whatever it held before. -/
def Obligations.ShiftRegisterAssemblerAgrees : Prop :=
  ∀ (v : BitVec 40) (m : Memory) (start : Nat),
    assemble config m start = if m.length = start + 40 then some (Frame.ofWord (assembleShift v m start)) else none

/-- R66, R64, R97: `byte[0][7:4]` of a frame assembled 4 after a preamble match is `0b0100`. -/
def Obligations.FirstNibbleIsThePreambleRemainder : Prop :=
  ∀ (m : Memory) (i : Nat) (f : Frame), scan config m = some i → assemble config m (i + config.frameOff) = some f →
    slice f[0] 4 4 = 0b0100 ∧ 0x40 ≤ f[0].toNat ∧ f[0].toNat ≤ 0x4F

/-! ### CRC8 and VERIFY -/

/-- R130, the bit loop with its literals. -/
def Obligations.Crc8RunsTheBitLoop : Prop :=
  ∀ (b0 b1 b2 b3 : Byte) (s : State),
    exec (.crc8 b0 b1 b2 b3) s = .next { s with result := .crc (
      let bit := fun p : Byte × Byte =>
        (if (p.1 ^^^ p.2) &&& 0x80 ≠ 0 then (p.1 <<< 1) ^^^ 0x31 else p.1 <<< 1, p.2 <<< 1)
      let byte := fun crc b : Byte => (bit (bit (bit (bit (bit (bit (bit (bit (crc, b))))))))).1
      byte (byte (byte (byte 0x00 b0) b1) b2) b3) }

/-- R132: `CRC8` is the remainder of the four bytes times `x^8` by `x^8 + x^5 + x^4 + 1`. -/
def Obligations.Crc8IsThePolynomialRemainder : Prop :=
  ∀ b0 b1 b2 b3 : Byte, crc8 config b0 b1 b2 b3 = remainder (b0 ++ b1 ++ b2 ++ b3 ++ (0 : BitVec 8))

/-- R132 (a). -/
def Obligations.Crc8IsLinear : Prop :=
  ∀ a0 a1 a2 a3 b0 b1 b2 b3 : Byte,
    crc8 config a0 a1 a2 a3 ^^^ crc8 config b0 b1 b2 b3 =
      crc8 config (a0 ^^^ b0) (a1 ^^^ b1) (a2 ^^^ b2) (a3 ^^^ b3)

/-- R132 (b), for the loop over any number of bytes. -/
def Obligations.LeadingZeroBytesDoNotCount : Prop :=
  ∀ (n : Nat) (bytes : List Byte), crcBytes config (List.replicate n 0 ++ bytes) = crcBytes config bytes

/-- R132 (c). -/
def Obligations.CrcOverMessageAndChecksumIsZero : Prop :=
  ∀ b0 b1 b2 b3 : Byte, crcBytes config [b0, b1, b2, b3, crc8 config b0 b1 b2 b3] = 0

/-- R132 (d): every change confined to 8 consecutive bits of a valid frame, checksum byte included, is detected. -/
def Obligations.EveryShortBurstIsDetected : Prop :=
  ∀ (f : Frame) (p : Byte) (k : Nat), verify config f = true → p ≠ 0 → k ≤ 32 →
    verify config (frameXor f (burst p k)) = false

/-- R131. -/
def Obligations.VerifyComparesTheChecksum : Prop :=
  ∀ (f : Frame) (s : State),
    exec (.verify f) s = .next { s with result := .valid (verify config f) } ∧
    (verify config f = true ↔ crc8 config f[0] f[1] f[2] f[3] = f[4])

/-! ### DECODE -/

/-- R140: the temperature as a number, sign and magnitude on the wire; the humidity raw. -/
def Obligations.DecodeReadsSignAndMagnitude : Prop :=
  ∀ (f : Frame) (s : State),
    exec (.decode f) s = .next { s with result := .reading (decodeFrame f) } ∧
    (decodeFrame f).hum = f[3] ∧
    (decodeFrame f).tempTenths.toInt =
      (if f[1].getLsbD 3 then -(((f[1].toNat % 8) * 256 + f[2].toNat : Nat) : Int)
       else (((f[1].toNat % 8) * 256 + f[2].toNat : Nat) : Int))

/-- R143: `byte[0]`, `byte[1][7:4]` and `byte[4]` are ignored. -/
def Obligations.DecodeIgnoresTheOtherBits : Prop :=
  ∀ f g : Frame, slice f[1] 0 4 = slice g[1] 0 4 → f[2] = g[2] → f[3] = g[3] → decodeFrame f = decodeFrame g

/-- R141: the range is -2047 to +2047, `0x800` is not reachable, and a magnitude of 0 decodes to 0 with either sign. -/
def Obligations.TemperatureRangeHasNoNegativeZero : Prop :=
  ∀ f : Frame,
    -2047 ≤ (decodeFrame f).tempTenths.toInt ∧ (decodeFrame f).tempTenths.toInt ≤ 2047 ∧
    (decodeFrame f).tempTenths ≠ 0x800 ∧
    ((f[1].toNat % 8) * 256 + f[2].toNat = 0 → (decodeFrame f).tempTenths = 0)

/-! ### EDGE.L, EDGE.H -/

/-- R92, R97: an EDGE that classifies Noise makes one decode attempt if anything is buffered, on the lowest preamble match only,
then clears the buffer and sets `prev` to Noise whatever the attempt gave. The labels are R99's. -/
def Obligations.EdgeOnNoiseAttemptsAndClears : Prop :=
  ∀ (level : Level) (ts : Ts) (s : State), classify config level (ts - s.lastTs) = .noise →
    ∃ (label : Label) (rd : Option Reading),
      exec (.edge level ts) s = .next { s with lastTs := ts, prev := .noise, buf := [], result := .edge label rd,
                                               out := s.out ++ rd.toList } ∧
      (s.len = 0 → label = .noiseEmpty ∧ rd = none) ∧
      (s.len > 0 → scan config s.buf = none → label = .noPreamble ∧ rd = none) ∧
      ∀ i, s.len > 0 → scan config s.buf = some i →
        (assemble config s.buf (i + 4) = none → label = .lenMismatch ∧ rd = none) ∧
        ∀ f, assemble config s.buf (i + 4) = some f →
          (verify config f = false → label = .crcMismatch ∧ rd = none) ∧
          (verify config f = true → label = .reading ∧ rd = some (decodeFrame f))

/-- R94: On after On changes `last_ts` only. -/
def Obligations.EdgeOnAfterOnIsIgnored : Prop :=
  ∀ (level : Level) (ts : Ts) (s : State), classify config level (ts - s.lastTs) = .on → s.prev = .on →
    exec (.edge level ts) s = .next { s with lastTs := ts, result := .edge .onIgnored none }

/-- R95: a data symbol after On with the buffer full empties the buffer, drops the symbol and leaves `prev` at On. -/
def Obligations.EdgeOverflowDropsTheSymbol : Prop :=
  ∀ (level : Level) (ts : Ts) (s : State),
    classify config level (ts - s.lastTs) = .shortOff ∨ classify config level (ts - s.lastTs) = .longOff →
    s.prev = .on → s.len = 128 →
    exec (.edge level ts) s = .next { s with lastTs := ts, buf := [], result := .edge .overflow none }

/-- R96: below capacity the symbol's bit is stored at index `len`, every other index reads as before, and `prev` is the
symbol. -/
def Obligations.EdgeAppendsOneSymbol : Prop :=
  ∀ (level : Level) (ts : Ts) (s : State) (sym : Symbol) (b : Bit),
    (sym = .shortOff ∧ b = true) ∨ (sym = .longOff ∧ b = false) →
    classify config level (ts - s.lastTs) = sym → s.prev = .on → s.len < 128 →
    ∃ m : Memory,
      exec (.edge level ts) s = .next { s with lastTs := ts, prev := sym, buf := m, result := .edge .append none } ∧
      m.length = s.len + 1 ∧ bufRead m s.len = some b ∧ ∀ i, i ≠ s.len → bufRead m i = bufRead s.buf i

/-- R98: a symbol that is not Noise, with `prev` not On, only becomes `prev`. -/
def Obligations.EdgeWithoutOnOnlySetsPrev : Prop :=
  ∀ (level : Level) (ts : Ts) (s : State), classify config level (ts - s.lastTs) ≠ .noise → s.prev ≠ .on →
    exec (.edge level ts) s = .next { s with lastTs := ts, prev := classify config level (ts - s.lastTs),
                                             result := .edge .prevOnly none }

/-- R100: an EDGE emits at most one reading, and emits one if and only if it classifies Noise, SCAN hits at `i`, `len` is
`i + 44` and the checksum of the 40 symbols from `i + 4` holds. -/
def Obligations.EdgeEmitsExactlyForValidFrames : Prop :=
  ∀ (level : Level) (ts : Ts) (s : State), ∃ t : State, exec (.edge level ts) s = .next t ∧
    (t.out = s.out ∨ ∃ r, t.out = s.out ++ [r]) ∧
    (t.out ≠ s.out ↔ classify config level (ts - s.lastTs) = .noise ∧
      ∃ i, scan config s.buf = some i ∧ s.len = i + 44 ∧ verify config (frameOf (s.buf.drop (i + 4))) = true)

/-- R177, R90: a timestamp that goes backwards by no more than `2^64 - 1751` microseconds, or does not move, is Noise: the buffer
is cleared, `last_ts` follows, nothing sticks. -/
def Obligations.BackwardTimestampIsNoise : Prop :=
  ∀ (level : Level) (ts : Ts) (s : State), ts.toNat ≤ s.lastTs.toNat → s.lastTs.toNat - ts.toNat ≤ 2 ^ 64 - 1751 →
    ∃ t : State, exec (.edge level ts) s = .next t ∧ t.lastTs = ts ∧ t.prev = .noise ∧ t.buf = []

/-! ### RESET -/

/-- R170: RESET writes `prev`, the buffer and `last_ts` and nothing else, and emits nothing, for every value of `LAST_TS_RESET`;
the instruction is that with the model's value of it (log entry 1). -/
def Obligations.ResetWritesTheInitialState : Prop :=
  (∀ (v : Ts) (s : State), resetCore { config with lastTsReset := v.toNat } s =
    { s with lastTs := v, prev := .noise, buf := [], result := .reset }) ∧
  ∀ s : State, exec .reset s = .next { s with lastTs := resetTs config, prev := .noise, buf := [], result := .reset }

/-- R32, R171: what reset leaves. -/
def Obligations.ResetStateIsTheSpecs : Prop :=
  State.reset.prev = .noise ∧ State.reset.prevReg = 0 ∧ State.reset.len = 0 ∧ State.reset.lastTs = resetTs config ∧
  State.reset.rdValid = false ∧ ∀ i, bufRead State.reset.buf i = none

/-- R173: the first event after RESET stores no symbol and emits nothing, for every value of `LAST_TS_RESET`. -/
def Obligations.FirstEventStoresNothing : Prop :=
  ∀ (v : Ts) (level : Level) (ts : Ts) (s : State),
    (edge config level ts (resetCore { config with lastTsReset := v.toNat } s)).buf = [] ∧
    (edge config level ts (resetCore { config with lastTsReset := v.toNat } s)).out = s.out

/-! ### Frames, invariants, independence -/

/-- R6, R27: a sub-block run alone changes nothing but what it answers; every index of the buffer reads as before. -/
def Obligations.SubBlocksChangeNoState : Prop :=
  ∀ (i : Instr) (s t : State),
    (match i with
      | .classify _ _ | .scan _ | .assemble _ _ | .crc8 _ _ _ _ | .verify _ | .decode _ => True
      | _ => False) →
    exec i s = .next t →
    t.lastTs = s.lastTs ∧ t.prev = s.prev ∧ t.buf = s.buf ∧ t.pending = s.pending ∧ t.out = s.out ∧
    ∀ a, bufRead t.buf a = bufRead s.buf a

/-- R72, R12: every operation completes, leaves what is offered as it was, and appends at most one reading to the output. -/
def Obligations.EveryInstructionCompletes : Prop :=
  ∀ (i : Instr) (s : State), ∃ t : State, exec i s = .next t ∧ t.pending = s.pending ∧
    ∃ l : List Reading, t.out = s.out ++ l ∧ l.length ≤ 1

/-- R21, R23, R26: what an operation can do to the buffer: nothing, one symbol at the end (only by an EDGE that finds `prev` at
On and classifies a data symbol), or the clear; and `last_ts` is the event's timestamp after every EDGE. -/
def Obligations.BufferGrowsByOneOrIsCleared : Prop :=
  ∀ (i : Instr) (s t : State), exec i s = .next t →
    (t.buf = s.buf ∨ t.buf = [] ∨
      (s.prev = .on ∧ s.len ≠ 128 ∧ ∃ level ts b, i = .edge level ts ∧
        (classify config level (ts - s.lastTs)).bit? = some b ∧ t.buf = s.buf ++ [b])) ∧
    ∀ level ts, i = .edge level ts → t.lastTs = ts

/-- The invariant of Safety.lean is kept by every step, from every state. -/
def Obligations.EveryStepKeepsTheInvariant : Prop :=
  ∀ s t : State, s.Inv → step s = .next t → t.Inv

/-- The invariant holds at reset. -/
def Obligations.ResetMeetsTheInvariant : Prop := State.reset.Inv

/-- R156: no step depends on the label or answer of the one before (the field is the model's, log entry 6). -/
def Obligations.NoStepDependsOnTheLastAnswer : Prop :=
  ∀ (s : State) (r : Result), step { s with result := r } = step s

/-- R7, R20: the output list is the observer's: what a step does, and what it emits, does not depend on it. -/
def Obligations.NoStepDependsOnTheOutputList : Prop :=
  ∀ (s t : State) (o : List Reading), step s = .next t →
    ∃ l : List Reading, t.out = s.out ++ l ∧ step { s with out := o } = .next { t with out := o ++ l }

/-- R31: an event on line `k` is an EDGE of the instance of line `k` and leaves every other instance as it was. -/
def Obligations.LinesAreIndependent : Prop :=
  ∀ (c : Config) (k j : Nat) (level : Level) (ts : Ts) (ls : Lines),
    (edgeLine c k level ts ls)[k]? = (ls[k]?).map (edge c level ts) ∧
    (j ≠ k → (edgeLine c k level ts ls)[j]? = ls[j]? ∧ (resetLine c k ls)[j]? = ls[j]?)

/-! ### Runs -/

/-- R5, R50, R185: with a list of events offered, as many steps consume them one after another in order, and what is left is the
run of R7. -/
def Obligations.StepsOverOfferedEventsAreARun : Prop :=
  ∀ (events : List EventWord) (s : State), s.pending = events.map Offer.event →
    Host.Core.run Sys2Proof.core events.length s = .next { runEvents config s events with pending := [] }

/-- R75: after `SYNC`, whatever the state and the time before, `prev` is Noise, nothing is buffered, and `last_ts` is the
second gap's time. -/
def Obligations.SyncForgetsThePast : Prop :=
  ∀ (s : State) (t0 : Ts),
    (runEvents config s (traceEvents t0 syncItems)).prev = .noise ∧
    (runEvents config s (traceEvents t0 syncItems)).buf = [] ∧
    (runEvents config s (traceEvents t0 syncItems)).lastTs = t0 + 10000

/-- R94: any number of consecutive On symbols count as one: the buffer, `prev` and the output stay, `last_ts` follows. -/
def Obligations.RepeatedOnsCountAsOne : Prop :=
  ∀ (durs : List Ts) (s : State), s.prev = .on → (∀ d ∈ durs, classify config .high d = .on) →
    ∃ result, runEvents config s (traceEvents s.lastTs (durs.map .h)) =
      { s with lastTs := durs.foldl (· + ·) s.lastTs, result := result }

/-- R96, R95: from a resynchronised state, a pulse train of at most 128 bits stands in the buffer bit for bit; at the 129th data
symbol the buffer is emptied, the symbol dropped, and `prev` stays On. Nothing is emitted. -/
def Obligations.OverflowAtThe129thSymbol : Prop :=
  ∀ (bits : List Bit) (pulses : List (Ts × Ts)) (s : State), s.prev = .noise → s.buf = [] → carries config bits pulses →
    (runEvents config s (traceEvents s.lastTs (pulseItems pulses))).out = s.out ∧
    (bits.length ≤ 128 → (runEvents config s (traceEvents s.lastTs (pulseItems pulses))).buf = bits) ∧
    (bits.length = 129 → (runEvents config s (traceEvents s.lastTs (pulseItems pulses))).buf = [] ∧
      (runEvents config s (traceEvents s.lastTs (pulseItems pulses))).prev = .on)

/-- R100, R101: a frame whose first nibble is the preamble remainder and whose checksum holds, sent after the first half of the
preamble as pulses anywhere inside their windows and closed by any event that classifies Noise, gives exactly its reading. -/
def Obligations.ValidFrameIsDecodedOnce : Prop :=
  ∀ (f : Frame) (pulses : List (Ts × Ts)) (closing : TraceItem) (s : State),
    s.prev = .noise → s.buf = [] → slice f[0] 4 4 = 0b0100 → verify config f = true →
    carries config ([true, true, true, true] ++ frameBitList f) pulses →
    classify config (itemLevel closing) (itemDur closing) = .noise →
    (runEvents config s (traceEvents s.lastTs (pulseItems pulses ++ [closing]))).out = s.out ++ [decodeFrame f] ∧
    readings config s (traceEvents s.lastTs (pulseItems pulses ++ [closing])) = [decodeFrame f]
end

