-- ==== Sys2Proof/Laws/Bits.lean ====
section
/-! SUPPORT. Slices of concatenations, the event word's fields, and a list of bits as the buffer operand of a word (R10, R60, R71). -/
namespace Sys2Proof

theorem slice_all {a : Nat} (x : BitVec a) : slice x 0 a = x := by
  apply BitVec.eq_of_getLsbD_eq
  intro i hi
  simp [slice, hi]

/-- The low part of a concatenation. -/
theorem slice_append_low {a b : Nat} (x : BitVec a) (y : BitVec b) : slice (x ++ y) 0 b = y := by
  apply BitVec.eq_of_getLsbD_eq
  intro i hi
  simp only [slice, BitVec.getLsbD_extractLsb', BitVec.getLsbD_append, hi]
  rw [if_pos (by omega)]
  simp

/-- A slice above the low part of a concatenation is a slice of the high part. -/
theorem slice_append_high {a b : Nat} (x : BitVec a) (y : BitVec b) (j k n : Nat) (h : j = b + k) :
    slice (x ++ y) j n = slice x k n := by
  subst h
  apply BitVec.eq_of_getLsbD_eq
  intro i hi
  simp only [slice, BitVec.getLsbD_extractLsb', BitVec.getLsbD_append, hi]
  rw [if_neg (by omega), show b + k + i - b = k + i by omega]

theorem eventLevel_eventWord (level : Level) (ts : Ts) : eventLevel (eventWord level ts) = level := by
  rw [eventLevel, eventWord, slice_append_high level.bit ts 64 0 1 rfl, slice_all]
  cases level <;> rfl

theorem eventTs_eventWord (level : Level) (ts : Ts) : eventTs (eventWord level ts) = ts := slice_append_low _ _

/-- A frame by its five bytes. -/
theorem Frame.exists_bytes (f : Frame) : ∃ b0 b1 b2 b3 b4 : Byte, f = #v[b0, b1, b2, b3, b4] :=
  ⟨f[0], f[1], f[2], f[3], f[4], by
    apply Vector.ext
    intro i hi
    match i, hi with
    | 0, _ => rfl
    | 1, _ => rfl
    | 2, _ => rfl
    | 3, _ => rfl
    | 4, _ => rfl⟩

/-- Two frames with equal bytes are equal. -/
theorem Frame.eq_of_bytes {f g : Frame} (h0 : f[0] = g[0]) (h1 : f[1] = g[1]) (h2 : f[2] = g[2]) (h3 : f[3] = g[3])
    (h4 : f[4] = g[4]) : f = g := by
  apply Vector.ext
  intro i hi
  match i, hi with
  | 0, _ => exact h0
  | 1, _ => exact h1
  | 2, _ => exact h2
  | 3, _ => exact h3
  | 4, _ => exact h4

theorem ofWord_word_frame (f : Frame) : Frame.ofWord f.word = f := by
  obtain ⟨a, b, c, d, e, rfl⟩ := f.exists_bytes
  change #v[slice (a ++ b ++ c ++ d ++ e) 32 8, slice (a ++ b ++ c ++ d ++ e) 24 8, slice (a ++ b ++ c ++ d ++ e) 16 8,
    slice (a ++ b ++ c ++ d ++ e) 8 8, slice (a ++ b ++ c ++ d ++ e) 0 8] = _
  rw [slice_append_high _ e 32 24 8 rfl, slice_append_high _ d 24 16 8 rfl, slice_append_high _ c 16 8 8 rfl,
    slice_append_high _ b 8 0 8 rfl, slice_all]
  rw [slice_append_high _ e 24 16 8 rfl, slice_append_high _ d 16 8 8 rfl, slice_append_high _ c 8 0 8 rfl, slice_append_low]
  rw [slice_append_high _ e 16 8 8 rfl, slice_append_high _ d 8 0 8 rfl, slice_append_low]
  rw [slice_append_high _ e 8 0 8 rfl, slice_append_low, slice_append_low]

/-- A frame operand loses no bit in decoding. -/
theorem word_ofWord_frame (w : BitVec 40) : (Frame.ofWord w).word = w := by
  change slice w 32 8 ++ slice w 24 8 ++ slice w 16 8 ++ slice w 8 8 ++ slice w 0 8 = w
  apply BitVec.eq_of_getLsbD_eq
  intro i hi
  simp only [BitVec.getLsbD_append, slice, BitVec.getLsbD_extractLsb']
  split_ifs <;> (rw [decide_eq_true (by omega), Bool.true_and]; congr 1; omega)

theorem ofWord_word_reading (r : Reading) : Reading.ofWord r.word = r := by
  simp only [Reading.ofWord, Reading.word]
  rw [slice_append_high r.tempTenths r.hum 8 0 12 rfl, slice_all, slice_append_low]

/-- Bit `i` after a list of bits has been shifted in: the list's last bits lie lowest. -/
theorem shiftFold_getLsbD {n : Nat} (bits : List Bit) (v : BitVec n) (i : Nat) (hi : i < n) :
    (bits.foldl (fun (v : BitVec n) b => (v <<< 1) ||| Bit.toVec n b) v).getLsbD i =
      if i < bits.length then bits.getD (bits.length - 1 - i) false else v.getLsbD (i - bits.length) := by
  induction bits generalizing v with
  | nil => simp
  | cons b bs ih =>
    rw [List.foldl_cons, ih]
    by_cases h1 : i < bs.length
    · rw [if_pos h1, if_pos (by simp; omega), show (b :: bs).length - 1 - i = (bs.length - 1 - i) + 1 by simp; omega]
      rfl
    · rw [if_neg h1]
      by_cases h2 : i = bs.length
      · subst h2
        rw [if_pos (by simp), show (b :: bs).length - 1 - bs.length = 0 by simp]
        simp only [Nat.sub_self]
        cases b <;> simp [Bit.toVec]
        omega
      · rw [if_neg (by simp; omega)]
        have e : i - bs.length = (i - (b :: bs).length) + 1 := by simp; omega
        have hlt : i - bs.length < n := by omega
        rw [e]
        have h3 : (Bit.toVec n b).getLsbD (i - (b :: bs).length + 1) = false := by
          cases b <;> simp [Bit.toVec]
        rw [BitVec.getLsbD_or, h3]
        simp
        intro
        simp at e
        omega

/-- A buffer written as an operand and read back. -/
theorem bufOfWord_wordOfBuf (m : List Bit) (h : m.length ≤ 128) : bufOfWord m.length (wordOfBuf m) = m := by
  apply List.ext_getElem
  · simp [bufOfWord]
  · intro i h1 h2
    simp only [bufOfWord, List.getElem_map, List.getElem_range]
    rw [BitVec.getMsbD]
    simp only [wordOfBuf, show Machine.config.bufCap = 128 from rfl, BitVec.getLsbD_shiftLeft]
    have e1 : 128 - 1 - i - (128 - m.length) = m.length - 1 - i := by omega
    have e2 : i < 128 := by omega
    have e3 : ¬128 - 1 - i < 128 - m.length := by omega
    simp only [e1, e2, e3, decide_true, Bool.true_and, decide_false, Bool.not_false]
    rw [shiftIn, shiftFold_getLsbD _ _ _ (by omega), if_pos (by omega)]
    have e4 : m.length - 1 - (m.length - 1 - i) = i := by omega
    have e5 : 127 - i < 128 := by omega
    simp [e4, h2, e5]

theorem lenField_toNat (m : List Bit) (h : m.length ≤ 128) : (lenField m).toNat = m.length := by
  simp [lenField]
  omega

end Sys2Proof
end

