-- ==== Sys2Proof/Laws/State.lean ====
section
/-! SUPPORT. One lemma per field per update of State, and the equality of states field by field. -/
namespace Sys2Proof.Machine

@[simp] theorem setLastTs_lastTs (s : State) (ts : Ts) : (s.setLastTs ts).lastTs = ts := rfl
@[simp] theorem setLastTs_prev (s : State) (ts : Ts) : (s.setLastTs ts).prev = s.prev := rfl
@[simp] theorem setLastTs_buf (s : State) (ts : Ts) : (s.setLastTs ts).buf = s.buf := rfl
@[simp] theorem setLastTs_pending (s : State) (ts : Ts) : (s.setLastTs ts).pending = s.pending := rfl
@[simp] theorem setLastTs_result (s : State) (ts : Ts) : (s.setLastTs ts).result = s.result := rfl
@[simp] theorem setLastTs_out (s : State) (ts : Ts) : (s.setLastTs ts).out = s.out := rfl

@[simp] theorem setPrev_lastTs (s : State) (sym : Symbol) : (s.setPrev sym).lastTs = s.lastTs := rfl
@[simp] theorem setPrev_prev (s : State) (sym : Symbol) : (s.setPrev sym).prev = sym := rfl
@[simp] theorem setPrev_buf (s : State) (sym : Symbol) : (s.setPrev sym).buf = s.buf := rfl
@[simp] theorem setPrev_pending (s : State) (sym : Symbol) : (s.setPrev sym).pending = s.pending := rfl
@[simp] theorem setPrev_result (s : State) (sym : Symbol) : (s.setPrev sym).result = s.result := rfl
@[simp] theorem setPrev_out (s : State) (sym : Symbol) : (s.setPrev sym).out = s.out := rfl

@[simp] theorem setBuf_lastTs (s : State) (m : Memory) : (s.setBuf m).lastTs = s.lastTs := rfl
@[simp] theorem setBuf_prev (s : State) (m : Memory) : (s.setBuf m).prev = s.prev := rfl
@[simp] theorem setBuf_buf (s : State) (m : Memory) : (s.setBuf m).buf = m := rfl
@[simp] theorem setBuf_pending (s : State) (m : Memory) : (s.setBuf m).pending = s.pending := rfl
@[simp] theorem setBuf_result (s : State) (m : Memory) : (s.setBuf m).result = s.result := rfl
@[simp] theorem setBuf_out (s : State) (m : Memory) : (s.setBuf m).out = s.out := rfl

@[simp] theorem setResult_lastTs (s : State) (r : Result) : (s.setResult r).lastTs = s.lastTs := rfl
@[simp] theorem setResult_prev (s : State) (r : Result) : (s.setResult r).prev = s.prev := rfl
@[simp] theorem setResult_buf (s : State) (r : Result) : (s.setResult r).buf = s.buf := rfl
@[simp] theorem setResult_pending (s : State) (r : Result) : (s.setResult r).pending = s.pending := rfl
@[simp] theorem setResult_result (s : State) (r : Result) : (s.setResult r).result = r := rfl
@[simp] theorem setResult_out (s : State) (r : Result) : (s.setResult r).out = s.out := rfl

@[simp] theorem setPending_lastTs (s : State) (p : List Offer) : (s.setPending p).lastTs = s.lastTs := rfl
@[simp] theorem setPending_prev (s : State) (p : List Offer) : (s.setPending p).prev = s.prev := rfl
@[simp] theorem setPending_buf (s : State) (p : List Offer) : (s.setPending p).buf = s.buf := rfl
@[simp] theorem setPending_pending (s : State) (p : List Offer) : (s.setPending p).pending = p := rfl
@[simp] theorem setPending_result (s : State) (p : List Offer) : (s.setPending p).result = s.result := rfl
@[simp] theorem setPending_out (s : State) (p : List Offer) : (s.setPending p).out = s.out := rfl

@[simp] theorem emit_lastTs (s : State) (r : Reading) : (s.emit r).lastTs = s.lastTs := rfl
@[simp] theorem emit_prev (s : State) (r : Reading) : (s.emit r).prev = s.prev := rfl
@[simp] theorem emit_buf (s : State) (r : Reading) : (s.emit r).buf = s.buf := rfl
@[simp] theorem emit_pending (s : State) (r : Reading) : (s.emit r).pending = s.pending := rfl
@[simp] theorem emit_result (s : State) (r : Reading) : (s.emit r).result = s.result := rfl
@[simp] theorem emit_out (s : State) (r : Reading) : (s.emit r).out = s.out ++ [r] := rfl

@[simp] theorem answer_eq (r : Result) (s : State) : answer r s = { s with result := r } := rfl

@[simp] theorem idle_eq (s : State) : idle s = { s with result := .idle } := rfl

/-- Every timestamp is the `LAST_TS_RESET` of some configuration. -/
@[simp] theorem resetTs_of_toNat (c : Config) (v : Ts) : resetTs { c with lastTsReset := v.toNat } = v :=
  BitVec.ofNat_toNat ..

theorem resetCore_eq (c : Config) (s : State) :
    resetCore c s = { s with lastTs := resetTs c, prev := .noise, buf := [], result := .reset } := rfl

/-- Two states with equal fields are equal. -/
theorem state_ext {s t : State} (h1 : s.lastTs = t.lastTs) (h2 : s.prev = t.prev) (h3 : s.buf = t.buf)
    (h4 : s.pending = t.pending) (h5 : s.result = t.result) (h6 : s.out = t.out) : s = t := by
  cases s; cases t; simp_all

end Sys2Proof.Machine
end

