-- ==== Sys2Proof/Laws/Memory.lean ====
section
/-! SUPPORT. The buffer primitives: what they read back, and that the form of the buffer is kept (R23, R41 to R43). -/
namespace Sys2Proof.Machine

@[simp] theorem bufClear_eq (m : Memory) : bufClear m = [] := rfl

@[simp] theorem bufAppend_length (m : Memory) (b : Bit) : (bufAppend m b).length = m.length + 1 := by
  simp [bufAppend]

/-- BufRead after BufAppend: the new entry stands at `len`. -/
theorem bufRead_append_new (m : Memory) (b : Bit) : bufRead (bufAppend m b) m.length = some b := by
  simp [bufRead, bufAppend]

/-- BufAppend leaves every other index as it was. -/
theorem bufRead_append_other (m : Memory) (b : Bit) (i : Nat) (h : i ≠ m.length) :
    bufRead (bufAppend m b) i = bufRead m i := by
  simp only [bufRead, bufAppend]
  rcases Nat.lt_or_gt_of_ne h with h | h
  · exact List.getElem?_append_left h
  · rw [List.getElem?_eq_none (by simp; omega), List.getElem?_eq_none (by omega)]

theorem bufRead_eq_none_iff (m : Memory) (i : Nat) : bufRead m i = none ↔ m.length ≤ i := by
  simp [bufRead]

/-- BufAppend below capacity keeps the form. -/
theorem bufAppend_wf (m : Memory) (b : Bit) (h : m.length < config.bufCap) : Memory.wf (bufAppend m b) := by
  simpa [Memory.wf] using h

/-- BufClear gives a buffer in form. -/
theorem bufClear_wf (m : Memory) : Memory.wf (bufClear m) := by simp [Memory.wf]

theorem reset_buf_wf : Memory.wf State.reset.buf := by simp [Memory.wf, State.reset]

@[simp] theorem len_eq (s : State) : s.len = s.buf.length := rfl

/-! The types of Syntax.lean have the sizes of the record (R8). -/

theorem ts_width : Ts = BitVec config.tsWidth := rfl
theorem frame_bytes : Frame = Vector Byte config.frameBytes := rfl
theorem bufField_width : BufField = BitVec config.bufCap := rfl

@[simp] theorem config_bufCap : config.bufCap = 128 := rfl
@[simp] theorem config_frameBits : config.frameBits = 40 := rfl
@[simp] theorem config_crcLen : config.crcLen = 4 := rfl
@[simp] theorem config_tsUnit : config.tsUnit = 1 := rfl
@[simp] theorem config_preLen : config.preLen = 8 := rfl
@[simp] theorem config_frameOff : config.frameOff = 4 := rfl
@[simp] theorem config_preambleBits :
    preambleBits config = [true, true, true, true, false, true, false, false] := rfl

end Sys2Proof.Machine
end

