-- ==== Sys2Proof/Laws/Blocks.lean ====
section
/-! SUPPORT. One lemma per sub-block that says once what it answers (R80, R110, R120, R130). -/
namespace Sys2Proof.Machine

/-! ### The Pulse Classifier -/

/-- Where `TS_UNIT` is 1 µs, a duration is its own number of microseconds. -/
theorem micros_of_unit (c : Config) (dur : Ts) (h : c.tsUnit = 1) : micros c dur = dur.toNat := by
  rw [micros, h, Nat.mul_one]

@[simp] theorem micros_config (dur : Ts) : micros config dur = dur.toNat := micros_of_unit config dur rfl

theorem inWindow_iff (c : Config) (nominal : Nat) (dur : Ts) :
    inWindow c nominal dur = true ↔ nominal - c.jitter ≤ micros c dur ∧
      (if c.upperInclusive then micros c dur ≤ nominal + c.jitter else micros c dur < nominal + c.jitter) := by
  unfold inWindow
  cases c.upperInclusive <;> simp

/-- A high interval is On or Noise (R80). -/
theorem classify_high_cases (c : Config) (dur : Ts) :
    classify c .high dur = .on ∨ classify c .high dur = .noise := by
  simp only [classify]
  split <;> simp

/-- A low interval is a data symbol or Noise (R80). -/
theorem classify_low_cases (c : Config) (dur : Ts) :
    classify c .low dur = .shortOff ∨ classify c .low dur = .longOff ∨ classify c .low dur = .noise := by
  simp only [classify]
  split
  · simp
  · split <;> simp

/-! ### The Preamble Scanner -/

theorem matchAt_iff (c : Config) (m : Memory) (i : Nat) :
    matchAt c m i = true ↔ ∀ k, k < c.preLen → bufRead m (i + k) = (preambleBits c)[k]? := by
  simp [matchAt]

/-- What a hit of SCAN says (R110): there is room for the preamble, it stands there, and at no lower index. -/
theorem scan_some (c : Config) (m : Memory) (i : Nat) (h : scan c m = some i) :
    i + c.preLen ≤ m.length ∧ matchAt c m i = true ∧ ∀ j, j < i → matchAt c m j = false := by
  unfold scan at h
  split at h
  · simp at h
  · rw [List.find?_range_eq_some] at h
    obtain ⟨h1, h2, h3⟩ := h
    simp at h2
    refine ⟨by omega, h1, fun j hj => by simpa using h3 j hj⟩

/-- What a miss of SCAN says (R110). -/
theorem scan_none (c : Config) (m : Memory) (h : scan c m = none) (i : Nat) (hi : i + c.preLen ≤ m.length) :
    matchAt c m i = false := by
  unfold scan at h
  split at h
  · omega
  · rw [List.find?_range_eq_none] at h
    simpa using h i (by omega)

/-- Two registers that agree in the bits that have gone in since the clear note the same index (R114). -/
theorem scanShiftFrom_congr (c : Config) (hc : 8 ≤ c.preLen) (m : Memory) (n : Nat) (r₁ r₂ : Byte)
    (h : ∀ i, i < n → i < 8 → r₁.getLsbD i = r₂.getLsbD i) : scanShiftFrom c m n r₁ = scanShiftFrom c m n r₂ := by
  induction m generalizing n r₁ r₂ with
  | nil => rfl
  | cons b rest ih =>
    have hs : ∀ i, i < n + 1 → i < 8 →
        ((r₁ <<< 1) ||| Bit.toVec 8 b).getLsbD i = ((r₂ <<< 1) ||| Bit.toVec 8 b).getLsbD i := by
      intro i hi h8
      rw [BitVec.getLsbD_or, BitVec.getLsbD_or, BitVec.getLsbD_shiftLeft, BitVec.getLsbD_shiftLeft]
      by_cases h0 : i < 1
      · simp [h0]
      · rw [h (i - 1) (by omega) (by omega)]
    have heq : c.preLen ≤ n + 1 → (r₁ <<< 1) ||| Bit.toVec 8 b = (r₂ <<< 1) ||| Bit.toVec 8 b := fun hn =>
      BitVec.eq_of_getLsbD_eq fun i hi => hs i (by omega) hi
    simp only [scanShiftFrom, ih (n + 1) _ _ hs]
    by_cases hn : c.preLen ≤ n + 1
    · rw [heq hn]
    · rw [if_neg fun h => hn h.1, if_neg fun h => hn h.1]

/-- The shift-register scanner's answer does not depend on what the register held before the buffer's first bit (log entry 22). -/
theorem scanShift_any_register (r : Byte) (m : Memory) : scanShiftFrom config m 0 r = scanShift config m :=
  scanShiftFrom_congr config (by decide) m 0 r 0 fun _ h => absurd h (by omega)

/-! ### The Frame Assembler -/

/-- What a frame of ASSEMBLE says (R120, R121). -/
theorem assemble_some (c : Config) (m : Memory) (start : Nat) (f : Frame) (h : assemble c m start = some f) :
    m.length = start + c.frameBits ∧ f = frameOf (m.drop start) := by
  unfold assemble at h
  split at h
  · exact ⟨by assumption, by simpa using h.symm⟩
  · simp at h

theorem assemble_none_iff (c : Config) (m : Memory) (start : Nat) :
    assemble c m start = none ↔ m.length ≠ start + c.frameBits := by
  unfold assemble
  split <;> simp_all

/-- Byte `k` of an assembled frame (R120). -/
theorem frameOf_getElem (bits : List Bit) (k : Nat) (h : k < 5) : (frameOf bits)[k] = byteOf bits k := by
  simp [frameOf]

theorem frameByte_eq (f : Frame) (k : Nat) (h : k < 5) : frameByte f k = f[k] := by
  simp [frameByte, h]

/-! ### The Checksum Validator -/

/-- With `CRC_LEN` at 4 the checksum covers all four operands (R130). -/
@[simp] theorem crc8_config (b0 b1 b2 b3 : Byte) : crc8 config b0 b1 b2 b3 = crcBytes config [b0, b1, b2, b3] := rfl

/-- What VERIFY says (R131). -/
theorem verify_iff (f : Frame) : verify config f = true ↔ crc8 config f[0] f[1] f[2] f[3] = f[4] := by
  have h : f[config.crcLen]? = some f[4] := Vector.getElem?_eq_getElem (by decide : config.crcLen < 5)
  rw [verify, h, decide_eq_true_iff]
  exact ⟨fun e => (Option.some.inj e).symm, fun e => congrArg some e.symm⟩

/-- The sum of two frames, byte by byte. -/
theorem frameXor_getElem (f g : Frame) (k : Nat) (h : k < 5) : (frameXor f g)[k] = f[k] ^^^ g[k] := by
  simp [frameXor]

/-- The bits of a frame, byte after byte (R45, R46). -/
theorem frameBitList_eq (f : Frame) :
    frameBitList f = byteBits f[0] ++ byteBits f[1] ++ byteBits f[2] ++ byteBits f[3] ++ byteBits f[4] := by
  obtain ⟨a, b, c, d, e, rfl⟩ := f.exists_bytes
  simp [frameBitList]

/-! ### The decode attempt -/

/-- What a reading of the attempt says (R97): a lowest match, the length, the checksum. -/
theorem tryDecode_ok (c : Config) (m : Memory) (r : Reading) (h : tryDecode c m = .ok r) :
    ∃ i f, scan c m = some i ∧ assemble c m (i + c.frameOff) = some f ∧ verify c f = true ∧ r = decodeFrame f := by
  unfold tryDecode at h
  split at h
  · simp at h
  · rename_i i hi
    split at h
    · simp at h
    · rename_i f hf
      split at h
      · exact ⟨i, f, hi, hf, by assumption, by simpa using h.symm⟩
      · simp at h

/-- The attempt meets one of three causes (R160). -/
theorem tryDecode_error (c : Config) (m : Memory) (x : RejectCause) (h : tryDecode c m = .error x) :
    (x = .noPreamble ∧ scan c m = none) ∨
    (∃ i, x = .frameLength ∧ scan c m = some i ∧ assemble c m (i + c.frameOff) = none) ∨
    ∃ i f, x = .checksum ∧ scan c m = some i ∧ assemble c m (i + c.frameOff) = some f ∧ verify c f = false := by
  unfold tryDecode at h
  split at h
  · left
    exact ⟨by simpa using h.symm, by assumption⟩
  · rename_i i hi
    split at h
    · exact Or.inr (Or.inl ⟨i, by simpa using h.symm, hi, by assumption⟩)
    · rename_i f hf
      split at h
      · simp at h
      · rename_i hv
        exact Or.inr (Or.inr ⟨i, f, by simpa using h.symm, hi, hf, by simpa using hv⟩)

end Sys2Proof.Machine
end

