-- ==== Sys2Proof/Laws/Edge.lean ====
section
/-! SUPPORT. What one EDGE can do, said once (R99): the inversion lemma the invariants and frames are derived from. -/
namespace Sys2Proof.Machine

/-- The Noise path (R92): the buffer is cleared and `prev` is Noise; the attempt decides the label and the reading. -/
theorem noisePath_cases (c : Config) (s : State) :
    (∃ r, s.buf ≠ [] ∧ tryDecode c s.buf = .ok r ∧
      noisePath c s = { s with prev := .noise, buf := [], result := .edge .reading (some r), out := s.out ++ [r] }) ∨
    (∃ x, s.buf ≠ [] ∧ tryDecode c s.buf = .error x ∧
      noisePath c s = { s with prev := .noise, buf := [], result := .edge (causeLabel x) none }) ∨
    (s.buf = [] ∧ noisePath c s = { s with prev := .noise, buf := [], result := .edge .noiseEmpty none }) := by
  unfold noisePath
  split
  · rename_i hl
    have hb : s.buf ≠ [] := by
      intro h
      simp [h] at hl
    split
    · exact Or.inl ⟨_, hb, by assumption, rfl⟩
    · exact Or.inr (Or.inl ⟨_, hb, by assumption, rfl⟩)
  · rename_i hl
    exact Or.inr (Or.inr ⟨by simpa using hl, rfl⟩)

/-- EDGE after its classification: Noise, On after On, no On before, overflow, append (R92 to R98). -/
theorem edgeSymbol_cases (c : Config) (sym : Symbol) (s : State) :
    (sym = .noise ∧ edgeSymbol c sym s = noisePath c s) ∨
    (sym = .on ∧ s.prev = .on ∧ edgeSymbol c sym s = { s with result := .edge .onIgnored none }) ∨
    (sym ≠ .noise ∧ s.prev ≠ .on ∧ edgeSymbol c sym s = { s with prev := sym, result := .edge .prevOnly none }) ∨
    ∃ b, sym.bit? = some b ∧ s.prev = .on ∧
      ((s.buf.length = c.bufCap ∧ edgeSymbol c sym s = { s with buf := [], result := .edge .overflow none }) ∨
       (s.buf.length ≠ c.bufCap ∧
        edgeSymbol c sym s = { s with prev := sym, buf := s.buf ++ [b], result := .edge .append none })) := by
  by_cases hp : s.prev = .on
  · cases sym
    · exact Or.inl ⟨rfl, rfl⟩
    · refine Or.inr (Or.inr (Or.inr ⟨true, rfl, hp, ?_⟩))
      by_cases hl : s.buf.length = c.bufCap
      · exact Or.inl ⟨hl, by simp [edgeSymbol, gateOpen, hp, dataPath, hl, State.setBuf, State.setResult]⟩
      · exact Or.inr ⟨hl, by
          simp [edgeSymbol, gateOpen, hp, dataPath, hl, State.setBuf, State.setResult, State.setPrev, bufAppend]⟩
    · refine Or.inr (Or.inr (Or.inr ⟨false, rfl, hp, ?_⟩))
      by_cases hl : s.buf.length = c.bufCap
      · exact Or.inl ⟨hl, by simp [edgeSymbol, gateOpen, hp, dataPath, hl, State.setBuf, State.setResult]⟩
      · exact Or.inr ⟨hl, by
          simp [edgeSymbol, gateOpen, hp, dataPath, hl, State.setBuf, State.setResult, State.setPrev, bufAppend]⟩
    · exact Or.inr (Or.inl ⟨rfl, hp, by simp [edgeSymbol, gateOpen, hp, State.setResult]⟩)
  · cases sym
    · exact Or.inl ⟨rfl, rfl⟩
    all_goals
      refine Or.inr (Or.inr (Or.inl ⟨by simp, hp, ?_⟩))
      simp [edgeSymbol, gateOpen, hp, State.setPrev, State.setResult]

/-- What EDGE does after its classification depends on `last_ts`, `prev` and the buffer alone, whatever is offered, whatever the
last answer was and whatever has been emitted. -/
theorem edgeSymbol_form (c : Config) (sym : Symbol) (ts : Ts) (prev : Symbol) (m : Memory) :
    ∃ prev' m' lab rd, ∀ p r o,
      edgeSymbol c sym ⟨ts, prev, m, p, r, o⟩ = ⟨ts, prev', m', p, .edge lab rd, o ++ Option.toList rd⟩ := by
  cases sym
  · by_cases hl : 0 < m.length
    · cases ht : tryDecode c m with
      | ok r => exact ⟨.noise, [], .reading, some r, fun p r o => by
          simp [edgeSymbol, noisePath, hl, ht, resync, State.setBuf, State.setPrev, State.setResult, State.emit]⟩
      | error x => exact ⟨.noise, [], causeLabel x, none, fun p r o => by
          simp [edgeSymbol, noisePath, hl, ht, resync, State.setBuf, State.setPrev, State.setResult]⟩
    · exact ⟨.noise, [], .noiseEmpty, none, fun p r o => by
        simp [edgeSymbol, noisePath, hl, resync, State.setBuf, State.setPrev, State.setResult]⟩
  · by_cases hp : prev = .on
    · by_cases hl : m.length = c.bufCap
      · exact ⟨prev, [], .overflow, none, fun p r o => by
          simp [edgeSymbol, gateOpen, hp, dataPath, hl, State.setBuf, State.setResult]⟩
      · exact ⟨.shortOff, m ++ [true], .append, none, fun p r o => by
          simp [edgeSymbol, gateOpen, hp, dataPath, hl, State.setBuf, State.setPrev, State.setResult, bufAppend]⟩
    · exact ⟨.shortOff, m, .prevOnly, none, fun p r o => by
        simp [edgeSymbol, gateOpen, hp, State.setPrev, State.setResult]⟩
  · by_cases hp : prev = .on
    · by_cases hl : m.length = c.bufCap
      · exact ⟨prev, [], .overflow, none, fun p r o => by
          simp [edgeSymbol, gateOpen, hp, dataPath, hl, State.setBuf, State.setResult]⟩
      · exact ⟨.longOff, m ++ [false], .append, none, fun p r o => by
          simp [edgeSymbol, gateOpen, hp, dataPath, hl, State.setBuf, State.setPrev, State.setResult, bufAppend]⟩
    · exact ⟨.longOff, m, .prevOnly, none, fun p r o => by
        simp [edgeSymbol, gateOpen, hp, State.setPrev, State.setResult]⟩
  · by_cases hp : prev = .on
    · exact ⟨prev, m, .onIgnored, none, fun p r o => by simp [edgeSymbol, gateOpen, hp, State.setResult]⟩
    · exact ⟨.on, m, .prevOnly, none, fun p r o => by
        simp [edgeSymbol, gateOpen, hp, State.setPrev, State.setResult]⟩

/-- The form of one EDGE (R99): `last_ts` is the event's time, at most one reading is appended, and nothing depends on the three
fields that are not CORE's. -/
theorem edge_form (c : Config) (level : Level) (ts lastTs : Ts) (prev : Symbol) (m : Memory) :
    ∃ prev' m' lab rd, ∀ p r o,
      edge c level ts ⟨lastTs, prev, m, p, r, o⟩ = ⟨ts, prev', m', p, .edge lab rd, o ++ Option.toList rd⟩ :=
  edgeSymbol_form c (classify c level (duration ts lastTs)) ts prev m

/-- EDGE with its classification known. -/
theorem edge_of_classify (c : Config) (level : Level) (ts : Ts) (s : State) (sym : Symbol)
    (h : classify c level (ts - s.lastTs) = sym) : edge c level ts s = edgeSymbol c sym (s.setLastTs ts) := by
  simp [edge, duration, h]

/-- EDGE writes `last_ts` (R90) and does not touch what is offered. -/
theorem edge_lastTs_pending (c : Config) (level : Level) (ts : Ts) (s : State) :
    (edge c level ts s).lastTs = ts ∧ (edge c level ts s).pending = s.pending := by
  obtain ⟨lastTs, prev, m, p, r, o⟩ := s
  obtain ⟨_, _, _, _, h⟩ := edge_form c level ts lastTs prev m
  simp [h]

end Sys2Proof.Machine
end

