-- ==== Sys2Proof/Laws/PerInstr.lean ====
section
/-! SUPPORT. Facts about every instruction as a term, one lemma per constructor: how wide its word is in the opcode table. -/
namespace Sys2Proof.Laws.EncodedWidth

/-- The width the opcode table gives an instruction's word. -/
def tableWidth : Instr → Nat
  | .edgeL _ => 65
  | .edgeH _ => 65
  | .reset => 1
  | .classify _ _ => 65
  | .scan _ => 136
  | .assemble _ _ => 143
  | .crc8 _ _ _ _ => 32
  | .verify _ => 40
  | .decode _ => 40

/-- The encoder gives an instruction a word of its row's width. -/
def Statement (i : Instr) : Prop := (encode i).width = tableWidth i

theorem edgeL (ts : Ts) : Statement (.edgeL ts) := rfl
theorem edgeH (ts : Ts) : Statement (.edgeH ts) := rfl
theorem reset : Statement .reset := rfl
theorem classify (level : Level) (dur : Ts) : Statement (.classify level dur) := rfl
theorem scan (buf : List Bit) : Statement (.scan buf) := rfl
theorem assemble (start : BitVec 7) (buf : List Bit) : Statement (.assemble start buf) := rfl
theorem crc8 (b0 b1 b2 b3 : Byte) : Statement (.crc8 b0 b1 b2 b3) := rfl
theorem verify (f : Frame) : Statement (.verify f) := rfl
theorem decode (f : Frame) : Statement (.decode f) := rfl

end Sys2Proof.Laws.EncodedWidth
end

