-- ==== Sys2Proof/Laws/Run.lean ====
section
/-! SUPPORT. Runs and traces, one item at a time (R7, R74). -/
namespace Sys2Proof.Machine

@[simp] theorem consume_eventWord (c : Config) (s : State) (level : Level) (ts : Ts) :
    consume c s (eventWord level ts) = edge c level ts s := by
  simp only [consume, eventLevel_eventWord, eventTs_eventWord]

@[simp] theorem runEvents_nil (c : Config) (s : State) : runEvents c s [] = s := rfl

@[simp] theorem runEvents_cons (c : Config) (s : State) (e : EventWord) (es : List EventWord) :
    runEvents c s (e :: es) = runEvents c (consume c s e) es := rfl

theorem runEvents_append (c : Config) (s : State) (xs ys : List EventWord) :
    runEvents c s (xs ++ ys) = runEvents c (runEvents c s xs) ys := List.foldl_append ..

/-- The duration an item of a trace shows to CORE is its own (R74). -/
theorem elapsed (t d : Ts) : t + d - t = d := by
  rw [BitVec.add_comm]
  simp

end Sys2Proof.Machine
end

