-- ==== Sys2Proof/Laws/Step.lean ====
section
/-! SUPPORT. What one step can do, said once: take the first offer and perform it, wait, or refuse. -/
namespace Sys2Proof.Machine

theorem exec_edge (level : Level) (ts : Ts) (s : State) : exec (.edge level ts) s = .next (edge config level ts s) := by
  cases level <;> rfl

theorem takeOffer_nil (s : State) (h : s.pending = []) : takeOffer s = none := by
  simp [takeOffer, h]

/-- Taking an offer: only the list of offers changes. -/
theorem takeOffer_cons (s : State) (o : Offer) (rest : List Offer) (h : s.pending = o :: rest) :
    ∃ p, takeOffer s = some (o, { s with pending := p }) := by
  cases o <;> simp [takeOffer, h, State.setPending]

/-- Taking an offer that is no event on its own leaves every event offered that was (R170 for one presented with `rst`). -/
theorem takeOffer_offeredEvents (s s' : State) (o : Offer) (h : takeOffer s = some (o, s')) (ho : ∀ e, o ≠ .event e) :
    offeredEvents s'.pending = offeredEvents s.pending := by
  cases hp : s.pending with
  | nil => simp [takeOffer, hp] at h
  | cons x rest =>
    cases x <;> simp only [takeOffer, hp, Option.some.injEq, Prod.mk.injEq] at h <;> obtain ⟨rfl, rfl⟩ := h
    · exact absurd rfl (ho _)
    all_goals rfl

/-- What a step that answers a next state did. -/
theorem step_next_cases (s t : State) (h : step s = .next t) :
    (s.pending = [] ∧ t = { s with result := .idle }) ∨
    ∃ o i p, takeOffer s = some (o, { s with pending := p }) ∧ decode o = .ok i ∧ exec i { s with pending := p } = .next t := by
  cases hp : s.pending with
  | nil =>
    left
    simp [step, takeOffer_nil s hp] at h
    exact ⟨rfl, by rw [← h, hp]⟩
  | cons o rest =>
    right
    obtain ⟨p, hq⟩ := takeOffer_cons s o rest hp
    simp only [step, hq] at h
    split at h
    · rename_i i hi
      exact ⟨o, i, p, hq, hi, h⟩
    · simp at h

theorem host_run_succ (M : Host.Core) (k : Nat) (s : M.State) :
    M.run (k + 1) s = (match M.step s with
      | .next t => M.run k t
      | .fault r => .fault r
      | .refused r => .refused r) := rfl

/-- One step of a run of the host's machine. -/
theorem core_run_next (k : Nat) (s t : State) (h : step s = .next t) :
    Host.Core.run Sys2Proof.core (k + 1) s = Host.Core.run Sys2Proof.core k t := by
  refine (host_run_succ Sys2Proof.core k s).trans ?_
  have hs : Host.Core.step Sys2Proof.core s = .next t := h
  rw [hs]

end Sys2Proof.Machine
end

