-- ==== Sys2Proof/Tests/Slice0.lean ====
section
/-!
SUPPORT. Tests on fixed values, taken from the spec's worked examples and vectors (95_test_vectors.md; the vector's name stands in
the comment), and for each statement with hypotheses a concrete state and operands that meet them all.
-/
namespace Sys2Proof.Tests
open Sys2Proof Sys2Proof.Machine

-- Each theorem is checked before the next one starts: many kernel evaluations at once need too many threads.
set_option Elab.async false

/-! ### Helpers -/

/-- A state by its three fields of 95_test_vectors.md, with `pending` offered. -/
def st (lastTs : Ts) (prev : Symbol) (buf : List Bit) (pending : List Offer := []) : State :=
  { State.reset with lastTs := lastTs, prev := prev, buf := buf, pending := pending }

/-- Bits written as 0 and 1. -/
def bits (ns : List Nat) : List Bit := ns.map fun n => n == 1

/-- The next state, where there is one. -/
def nextOf (o : Host.Outcome State Fault Refusal) : Option State :=
  match o with
  | .next t => some t
  | _ => none

theorem eq_next_of_nextOf {o : Host.Outcome State Fault Refusal} {t : State} (h : nextOf o = some t) : o = .next t := by
  cases o <;> simp_all [nextOf]

/-- What one operation leaves of CORE's own state, and its label and reading. -/
def after (i : Instr) (s : State) : Option (Ts × Symbol × List Bit × Result) :=
  match exec i s with
  | .next t => some (t.lastTs, t.prev, t.buf, t.result)
  | _ => none

/-- What one operation answers. -/
def ans (i : Instr) : Option Result :=
  match exec i State.reset with
  | .next t => some t.result
  | _ => none

/-- The frame of program P1. -/
def f1 : Frame := #v[0x4A, 0x81, 0x0A, 0x5A, 0x23]

/-- The 44-bit buffer of program P1. -/
def p1 : List Bit := [true, true, true, true] ++ frameBitList f1

/-- The pulses of program P7: every duration at a window's edge. -/
def edgePulses (m : List Bit) : List (Ts × Ts) :=
  m.mapIdx fun n b => (if n % 2 = 0 then 750 else 1250,
    if b then (if n % 2 = 0 then 250 else 750) else (if n % 2 = 0 then 1250 else 1750))

/-! ### Well-formedness refuses -/

theorem test_wf_refuses_scan_of_129 : (Instr.scan (List.replicate 129 true)).wf = false := by decide +kernel
theorem test_wf_refuses_assemble_of_129 : (Instr.assemble 4 (List.replicate 129 true)).wf = false := by decide +kernel

/-! ### Decoding, words written out from R60, R65, R71 -/

/-- P1, first word: level 1, 5000. -/
theorem test_decode_edgeH : decode (.event 0x10000000000001388) = .ok (.edgeH 5000) := by decide
/-- P1, fourth word: level 0, 11500. -/
theorem test_decode_edgeL : decode (.event 0x00000000000002CEC) = .ok (.edgeL 11500) := by decide
theorem test_decode_reset : decode .rst = .ok .reset := by decide
theorem test_decode_reset_wins : decode (.rstEvent 0x00000000000002CEC) = .ok .reset := by decide
theorem test_decode_classify : decode (.classify 0x000000000000004E2) = .ok (.classify .low 1250) := by decide
/-- S3's buffer: `len` = 8, `buf` = 11110100. -/
theorem test_decode_scan : decode (.scan 0x08F4000000000000000000000000000000) =
    .ok (.scan [true, true, true, true, false, true, false, false]) := by decide +kernel
/-- `start` = 4, `len` = 3, `buf` = 101; the bits below are not read. -/
theorem test_decode_assemble : decode (.assemble 0x0403BF000000000000000000000000000001) =
    .ok (.assemble 4 [true, false, true]) := by decide +kernel
theorem test_decode_crc8 : decode (.crc8 0xF8000032) = .ok (.crc8 0xF8 0x00 0x00 0x32) := by decide
theorem test_decode_verify : decode (.verify 0x4A810A5A23) = .ok (.verify f1) := by decide
theorem test_decode_decode : decode (.decode 0x4A810A5A23) = .ok (.decode f1) := by decide
theorem test_decode_refuses_scan_len_129 :
    decode (.scan (129 <<< 128)) = .error .scanLen := by decide +kernel
theorem test_encode_edgeH : encode (.edgeH 10000) = .event 0x10000000000002710 := by decide
theorem test_table_word_edge : decodeTableWord 72 0x10000000000002710 = some (.edgeH 10000) := by decide
theorem test_table_word_reset : decodeTableWord 8 1 = some .reset := by decide
theorem test_fetched_word_runs : nextOf (step (State.reset.withFetchWord 72 0x10000000000002710)) =
    some { st 10000 .noise [] with result := .edge .noiseEmpty none } := by decide

/-! ### Operations -/

/-- T10, the inclusive upper endpoint. -/
theorem test_classify_low_750 : ans (.classify .low 750) = some (.symbol .shortOff) := by decide
/-- T41. -/
theorem test_classify_high_1251 : ans (.classify .high 1251) = some (.symbol .noise) := by decide
/-- S12. -/
theorem test_scan_S12 : ans (.scan (bits [1, 1, 1, 0, 1, 0, 0, 1, 1, 1, 1, 0, 1, 0, 0, 0])) = some (.index (some 7)) := by
  decide +kernel
/-- S8, the highest possible index. -/
theorem test_scan_S8 : ans (.scan (List.replicate 120 false ++ bits [1, 1, 1, 1, 0, 1, 0, 0])) = some (.index (some 120)) := by
  decide +kernel
/-- A1. -/
theorem test_assemble_A1 : ans (.assemble 4 (bits [1, 1, 1, 1, 0, 1, 0, 0, 1, 0, 1, 0, 1, 0, 0, 0, 0, 0, 0, 1, 0, 0, 0, 0, 1, 0,
    1, 0, 0, 1, 0, 1, 1, 0, 1, 0, 0, 0, 1, 0, 0, 0, 1, 1])) = some (.frame (some f1)) := by decide +kernel
/-- A6, 41 symbols. -/
theorem test_assemble_41 : ans (.assemble 4 (List.replicate 45 true)) = some (.frame none) := by decide +kernel
/-- V30. -/
theorem test_crc8_V30 : ans (.crc8 0xF8 0x00 0x00 0x32) = some (.crc 0xE2) := by decide +kernel
/-- V10. -/
theorem test_crc8_V10 : ans (.crc8 0x4A 0x81 0x0A 0x5A) = some (.crc 0x23) := by decide +kernel
theorem test_verify_good : ans (.verify f1) = some (.valid true) := by decide +kernel
theorem test_verify_flipped : ans (.verify (f1.set 4 0x22)) = some (.valid false) := by decide +kernel
/-- K2: the reading word is `0xEF65A`. -/
theorem test_decode_K2 : (decodeFrame #v[0x4A, 0x89, 0x0A, 0x5A, 0x71]).word = 0xEF65A := by decide
/-- K4, no negative zero. -/
theorem test_decode_K4 : ans (.decode #v[0x40, 0x08, 0x00, 0x00, 0xB2]) = some (.reading ⟨0, 0⟩) := by decide
/-- E5. -/
theorem test_edgeL_E5 : after (.edgeL 13500) (st 12000 .on [true]) =
    some (13500, .longOff, [true, false], .edge .append none) := by decide +kernel
/-- E7, overflow: `prev` stays On. -/
theorem test_edgeL_E7 : after (.edgeL 50500) (st 50000 .on (List.replicate 128 true)) =
    some (50500, .on, [], .edge .overflow none) := by decide +kernel
/-- E16, the reading of P1. -/
theorem test_edgeH_E16 : after (.edgeH 107000) (st 102000 .shortOff p1) =
    some (107000, .noise, [], .edge .reading (some ⟨266, 90⟩)) := by decide +kernel
/-- E14, the counter wraps. -/
theorem test_edgeH_E14 : after (.edgeH 500) (st (0 - 500) .noise []) = some (500, .on, [], .edge .prevOnly none) := by
  decide +kernel
/-- Z2: the frame waiting in the buffer is lost. -/
theorem test_reset_Z2 : after .reset (st 102000 .shortOff p1) = some (0, .noise, [], .reset) := by decide +kernel
/-- R170: with `rst` and an event together, the event stays offered. -/
theorem test_reset_keeps_the_event : step (st 7 .on [true] [.rstEvent 0x10000000000001388]) =
    .next { st 0 .noise [] [.event 0x10000000000001388] with result := .reset } := eq_next_of_nextOf (by decide)
/-- P1's trace: 91 event words, the third being `H` at 11000. -/
theorem test_trace_P1 : (traceEvents 0 (syncItems ++ transmission f1 ++ gapItems))[2]? = some 0x10000000000002AF8 := by
  decide +kernel
theorem test_trace_P1_length : (traceEvents 0 (syncItems ++ transmission f1 ++ gapItems)).length = 91 := by decide +kernel

/-! ### Witnesses: the hypotheses of the statements can be met -/

theorem witness_DecodeOfEncodeIsInstruction : (Instr.scan (List.replicate 128 true)).wf = true := by decide +kernel

theorem witness_ScanWordReadsItsFirstLenBits :
    (((128 <<< 128 : BitVec 136)) >>> 128).toNat ≤ 128 ∧ 128 < (((129 <<< 128 : BitVec 136)) >>> 128).toNat := by
  decide +kernel

theorem witness_AssembleWordReadsItsFirstLenBits :
    (((128 <<< 128 : BitVec 143)) >>> 128).toNat % 256 ≤ 128 ∧ 128 < (((129 <<< 128 : BitVec 143)) >>> 128).toNat % 256 := by
  decide +kernel

theorem witness_DecodedInstructionsAreWellFormed :
    decode (.scan (8 <<< 128)) = .ok (.scan (List.replicate 8 false)) := by decide +kernel

theorem witness_StepRunsTheOfferedInstruction :
    (st 0 .noise [] [.rstEvent 5, .rst]).pending = .rstEvent 5 :: [.rst] ∧ decode (.rstEvent 5) = .ok .reset := by decide

theorem witness_TableWordRunsAsTheNextInstruction : decodeTableWord 40 0x4A810A5A23 = some (.verify f1) := by decide

theorem witness_NothingOfferedChangesNothing : (st 9 .on [true]).pending = [] := by decide

theorem witness_ResetWinsOverAnOfferedEvent : (st 9 .on [true] [.rstEvent 7]).pending = .rstEvent 7 :: [] := by decide

theorem witness_EventConsumedExactlyWhenValidAndReady : (st 9 .on [true] [.event 7]).pending = .event 7 :: [] := by decide

theorem witness_ReadingPortsValidForOneTransfer :
    ∃ t, step (st 102000 .shortOff p1 [.event (eventWord .high 107000)]) = .next t ∧ t.rdPort = some ⟨266, 90⟩ :=
  ⟨{ st 107000 .noise [] with result := .edge .reading (some ⟨266, 90⟩), out := [⟨266, 90⟩] },
    eq_next_of_nextOf (by decide +kernel), rfl⟩

/-- R170: an event presented with `rst` is not consumed. -/
theorem witness_EventNotConsumedUnderReset : ¬((st 9 .on [true] [.rstEvent 7]).evValid = true ∧
    (st 9 .on [true] [.rstEvent 7]).evReady = true) ∧ step (st 9 .on [true] [.rstEvent 7]) =
      .next { st 0 .noise [] [.event 7] with result := .reset } := ⟨by decide, eq_next_of_nextOf (by decide)⟩

theorem witness_StepStopsOnlyOnBadOperandWords :
    ((128 <<< 128 : BitVec 136) >>> 128).toNat ≤ 128 ∧ 128 < ((129 <<< 128 : BitVec 136) >>> 128).toNat ∧
    ((128 <<< 128 : BitVec 143) >>> 128).toNat % 256 ≤ 128 ∧ 128 < ((129 <<< 128 : BitVec 143) >>> 128).toNat % 256 := by
  decide +kernel

theorem witness_UpperEndpointsAreTheOnlyDifference :
    ((Level.low = .low ∧ ((750 : Ts) = 750 ∨ (750 : Ts) = 1750)) ∨ (Level.low = .high ∧ (750 : Ts) = 1250)) ∧
    ((Level.low = .low ∧ ((1750 : Ts) = 750 ∨ (1750 : Ts) = 1750)) ∨ (Level.low = .high ∧ (1750 : Ts) = 1250)) ∧
    ((Level.high = .low ∧ ((1250 : Ts) = 750 ∨ (1250 : Ts) = 1750)) ∨ (Level.high = .high ∧ (1250 : Ts) = 1250)) := by decide

theorem witness_HalfOpenWindowsHoldUnderBothReadings :
    (250 ≤ (250 : Ts).toNat ∧ (749 : Ts).toNat < 750) ∧ (1250 ≤ (1250 : Ts).toNat ∧ (1749 : Ts).toNat < 1750) ∧
    (750 ≤ (750 : Ts).toNat ∧ (1249 : Ts).toNat < 1250) ∧
    (¬(250 ≤ (751 : Ts).toNat ∧ (751 : Ts).toNat ≤ 750) ∧ ¬(1250 ≤ (751 : Ts).toNat ∧ (751 : Ts).toNat ≤ 1750)) ∧
    ¬(750 ≤ (1251 : Ts).toNat ∧ (1251 : Ts).toNat ≤ 1250) := by decide

/-- S5: two matches, exactly 8 apart. -/
theorem witness_PreambleMatchesAreEightApart :
    matchAt config (bits [1, 1, 1, 1, 0, 1, 0, 0, 1, 1, 1, 1, 0, 1, 0, 0]) 0 = true ∧
    matchAt config (bits [1, 1, 1, 1, 0, 1, 0, 0, 1, 1, 1, 1, 0, 1, 0, 0]) 8 = true ∧ 0 < 8 := by decide +kernel

/-- P6g: the buffer exactly full, the match at 84. -/
theorem witness_ScanHitBounds : Memory.wf (List.replicate 84 false ++ p1) ∧
    scan config (List.replicate 84 false ++ p1) = some 84 ∧
    assemble config (List.replicate 84 false ++ p1) (84 + config.frameOff) = some f1 := by decide +kernel

theorem witness_AssembleTakesExactlyFortySymbols : assemble config p1 (4 : BitVec 7).toNat = some f1 := by decide +kernel

/-- A2: a frame whose first byte does not begin with `0b0100`, at start 0. -/
theorem witness_AssembleReproducesEveryFrame :
    (frameBitList #v[0x01, 0x23, 0x45, 0x67, 0x89]).length = 0 + 40 ∧
    ∀ k, k < 5 → ∀ j, j < 8 → bufRead (frameBitList #v[0x01, 0x23, 0x45, 0x67, 0x89]) (0 + 8 * k + j) =
      some ((frameByte #v[0x01, 0x23, 0x45, 0x67, 0x89] k).getLsbD (7 - j)) := by decide +kernel

theorem witness_FirstNibbleIsThePreambleRemainder :
    scan config p1 = some 0 ∧ assemble config p1 (0 + config.frameOff) = some f1 := by decide +kernel

theorem witness_EveryShortBurstIsDetected : verify config f1 = true ∧ (0x80 : Byte) ≠ 0 ∧ 32 ≤ 32 := by decide +kernel

theorem witness_DecodeIgnoresTheOtherBits :
    slice (0x81 : Byte) 0 4 = slice (0xF1 : Byte) 0 4 ∧ (#v[0x4A, 0x81, 0x0A, 0x5A, 0x23] : Frame) ≠ #v[0, 0xF1, 0x0A, 0x5A, 0] := by
  decide

theorem witness_TemperatureRangeHasNoNegativeZero : ((0x08 : Byte).toNat % 8) * 256 + (0 : Byte).toNat = 0 := by decide

theorem witness_EdgeOnNoise_empty :
    classify config .high (5000 - (st 0 .on []).lastTs) = .noise ∧ (st 0 .on []).len = 0 := by decide
theorem witness_EdgeOnNoise_no_preamble :
    classify config .low (1000 - (st 0 .on [true]).lastTs) = .noise ∧ (st 0 .on [true]).len > 0 ∧
    scan config (st 0 .on [true]).buf = none := by decide
theorem witness_EdgeOnNoise_length :
    scan config (p1 ++ [true]) = some 0 ∧ assemble config (p1 ++ [true]) (0 + 4) = none := by decide +kernel
theorem witness_EdgeOnNoise_checksum :
    scan config ([true, true, true, true] ++ frameBitList (f1.set 4 0x22)) = some 0 ∧
    assemble config ([true, true, true, true] ++ frameBitList (f1.set 4 0x22)) (0 + 4) = some (f1.set 4 0x22) ∧
    verify config (f1.set 4 0x22) = false := by decide +kernel
theorem witness_EdgeOnNoise_reading :
    classify config .high (107000 - (st 102000 .shortOff p1).lastTs) = .noise ∧ (st 102000 .shortOff p1).len > 0 ∧
    scan config p1 = some 0 ∧ assemble config p1 (0 + 4) = some f1 ∧ verify config f1 = true := by decide +kernel

theorem witness_EdgeOnAfterOnIsIgnored :
    classify config .high (12000 - (st 11000 .on [true]).lastTs) = .on ∧ (st 11000 .on [true]).prev = .on := by decide

theorem witness_EdgeOverflowDropsTheSymbol :
    classify config .low (50500 - 50000) = .shortOff ∧ classify config .low (51500 - 50000) = .longOff ∧
    (st 50000 .on (List.replicate 128 true)).prev = .on ∧ (st 50000 .on (List.replicate 128 true)).len = 128 := by
  decide +kernel

/-- E8, the last free entry, and E2, the first. -/
theorem witness_EdgeAppendsOneSymbol :
    (classify config .low (51500 - 50000) = .longOff ∧ (st 50000 .on (List.replicate 127 true)).prev = .on ∧
      (st 50000 .on (List.replicate 127 true)).len < 128) ∧
    (classify config .low (11500 - 11000) = .shortOff ∧ (st 11000 .on []).prev = .on ∧ (st 11000 .on []).len < 128) := by
  decide +kernel

theorem witness_EdgeWithoutOnOnlySetsPrev :
    classify config .low (12000 - (st 11500 .shortOff [true]).lastTs) ≠ .noise ∧ (st 11500 .shortOff [true]).prev ≠ .on := by
  decide

/-- E12 (no time passed) and the largest step back the statement covers. -/
theorem witness_BackwardTimestampIsNoise :
    ((50000 : Ts).toNat ≤ (50000 : Ts).toNat ∧ (50000 : Ts).toNat - (50000 : Ts).toNat ≤ 2 ^ 64 - 1751) ∧
    ((1750 : Ts).toNat ≤ (0 - 1 : Ts).toNat ∧ (0 - 1 : Ts).toNat - (1750 : Ts).toNat ≤ 2 ^ 64 - 1751) := by decide

theorem witness_SubBlocksChangeNoState :
    exec (.verify f1) State.reset = .next { State.reset with result := .valid true } :=
  eq_next_of_nextOf (by decide +kernel)

theorem witness_BufferGrowsByOneOrIsCleared : exec (.edgeL 11500) (st 11000 .on []) =
    .next { st 11500 .shortOff [true] with result := .edge .append none } := eq_next_of_nextOf (by decide)

theorem witness_EveryStepKeepsTheInvariant : (st 11000 .on [true] [.event (eventWord .low 11500)]).Inv ∧
    step (st 11000 .on [true] [.event (eventWord .low 11500)]) =
      .next { st 11500 .shortOff [true, true] with result := .edge .append none } :=
  ⟨⟨by decide, by decide, by decide, by decide⟩, eq_next_of_nextOf (by decide)⟩

theorem witness_NoStepDependsOnTheOutputList : step (st 11000 .on [true] [.event (eventWord .low 11500)]) =
    .next { st 11500 .shortOff [true, true] with result := .edge .append none } := eq_next_of_nextOf (by decide)

theorem witness_LinesAreIndependent : (1 : Nat) ≠ 0 := by decide

theorem witness_StepsOverOfferedEventsAreARun :
    (st 0 .noise [] [.event 5, .event 6]).pending = [(5 : EventWord), 6].map Offer.event := by decide

theorem witness_RepeatedOnsCountAsOne :
    (st 0 .on [true]).prev = .on ∧ ∀ d ∈ [(1000 : Ts), 800], classify config .high d = .on := by
  refine ⟨rfl, ?_⟩
  simp only [List.forall_mem_cons]
  exact ⟨by decide, by decide, by simp⟩

theorem witness_OverflowAtThe129thSymbol :
    (st 0 .noise []).prev = .noise ∧ (st 0 .noise []).buf = [] ∧
    carries config (List.replicate 128 true) (edgePulses (List.replicate 128 true)) ∧
    (List.replicate 128 true).length ≤ 128 ∧
    carries config (List.replicate 129 false) (edgePulses (List.replicate 129 false)) ∧
    (List.replicate 129 false).length = 129 := by
  refine ⟨rfl, rfl, ?_, by simp, ?_, by simp⟩ <;> (unfold carries; decide +kernel)

/-- P7: program P1 with every pulse at a window's edge. -/
theorem witness_ValidFrameIsDecodedOnce :
    (st 0 .noise []).prev = .noise ∧ (st 0 .noise []).buf = [] ∧ slice f1[0] 4 4 = 0b0100 ∧ verify config f1 = true ∧
    carries config ([true, true, true, true] ++ frameBitList f1) (edgePulses p1) ∧
    classify config (itemLevel (.h 5000)) (itemDur (.h 5000)) = .noise := by
  refine ⟨rfl, rfl, by decide, by decide +kernel, ?_, by decide⟩
  unfold carries
  decide +kernel

end Sys2Proof.Tests
end

section
/-! SUPPORT. One step from the first offer on and what an instruction's outcome depends on; then the statements of 00_scope.md:
what a step runs, what a sub-block leaves, that the output list plays no part, and how steps make up a run (R5 to R7, R27). -/
namespace Sys2Proof.Machine

/-! ### Reading an offered word -/

theorem bufOfWord_length (n : Nat) (w : BufField) : (bufOfWord n w).length = n := by
  simp [bufOfWord]

/-- Only the buffer operands of SCAN and ASSEMBLE could be too long, and the decoder's bound on `len` is theirs (R23, R71). -/
theorem decode_wf (o : Offer) (i : Instr) (h : decode o = .ok i) : i.wf = true := by
  cases o with
  | scan w =>
    simp only [decode] at h
    split at h
    · next hlen =>
      obtain rfl := Except.ok.inj h
      simpa [Instr.wf, bufOfWord_length] using hlen
    · nomatch h
  | assemble w =>
    simp only [decode] at h
    split at h
    · next hlen =>
      obtain rfl := Except.ok.inj h
      simpa [Instr.wf, bufOfWord_length] using hlen
    · nomatch h
  | event e =>
    obtain rfl := Except.ok.inj h
    cases eventLevel e <;> rfl
  | rst | rstEvent | classify | crc8 | verify | decode =>
    obtain rfl := Except.ok.inj h
    rfl

/-! ### Taking the first offer -/

/-- What is offered once `o`, with `rest` after it, has been taken: an event presented together with `rst` stays (R170). -/
def afterTaking (o : Offer) (rest : List Offer) : List Offer :=
  match o with
  | .rstEvent e => .event e :: rest
  | _ => rest

theorem takeOffer_of_pending (s : State) (o : Offer) (rest : List Offer) (h : s.pending = o :: rest) :
    takeOffer s = some (o, { s with pending := afterTaking o rest }) := by
  cases o <;> simp [takeOffer, h, afterTaking, State.setPending]

theorem step_of_no_offer (s : State) (h : s.pending = []) : step s = .next { s with result := .idle } := by
  simp [step, takeOffer_nil s h]

theorem step_of_takeOffer (s s' : State) (o : Offer) (i : Instr) (ht : takeOffer s = some (o, s')) (hd : decode o = .ok i) :
    step s = exec i s' := by
  simp [step, ht, hd]

/-- Taking an offer plays no part in the output list, nor the list in it (R20). -/
theorem takeOffer_of_other_output (s s' : State) (o : Offer) (out : List Reading) (h : takeOffer s = some (o, s')) :
    takeOffer { s with out := out } = some (o, { s' with out := out }) := by
  cases hp : s.pending with
  | nil => simp [takeOffer_nil s hp] at h
  | cons x rest =>
    rw [takeOffer_of_pending s x rest hp, Option.some.injEq, Prod.mk.injEq] at h
    obtain ⟨rfl, rfl⟩ := h
    exact takeOffer_of_pending _ x rest rfl

/-! ### What an instruction's outcome depends on -/

/-- The nine rows are three kinds: EDGE, RESET, and the sub-blocks, whose answer does not depend on the state they are run on
(R6, R71). -/
theorem instr_kinds (i : Instr) :
    (∃ level ts, i = .edge level ts) ∨ i = .reset ∨ ∃ r, ∀ s, exec i s = .next { s with result := r } := by
  cases i with
  | edgeL ts => exact .inl ⟨.low, ts, rfl⟩
  | edgeH ts => exact .inl ⟨.high, ts, rfl⟩
  | reset => exact .inr (.inl rfl)
  | classify | scan | assemble | crc8 | verify | decode => exact .inr (.inr ⟨_, fun _ => rfl⟩)

/-- Every instruction completes; its answer, what it leaves in CORE and the reading it appends, if any, are functions of
`last_ts`, `prev` and the buffer alone (R7, R20, R156). -/
theorem exec_form (i : Instr) (lastTs : Ts) (prev : Symbol) (m : Memory) :
    ∃ lastTs' prev' m' r' rd, ∀ p r o,
      exec i ⟨lastTs, prev, m, p, r, o⟩ = .next ⟨lastTs', prev', m', p, r', o ++ Option.toList rd⟩ := by
  obtain ⟨level, ts, rfl⟩ | rfl | ⟨r', hi⟩ := instr_kinds i
  · obtain ⟨prev', m', lab, rd, hedge⟩ := edge_form config level ts lastTs prev m
    exact ⟨ts, prev', m', .edge lab rd, rd, fun p r o => by rw [exec_edge, hedge]⟩
  · exact ⟨resetTs config, .noise, [], .reset, none, fun p r o => by simp [exec, execReset, resetCore_eq]⟩
  · exact ⟨lastTs, prev, m, r', none, fun p r o => by simp [hi]⟩

/-- An instruction that answers `t` has appended some `l`, and appends the same `l` to any other output (R7). -/
theorem exec_of_other_output (i : Instr) (s t : State) (o : List Reading) (h : exec i s = .next t) :
    ∃ l, t.out = s.out ++ l ∧ exec i { s with out := o } = .next { t with out := o ++ l } := by
  obtain ⟨lastTs, prev, m, p, r, out⟩ := s
  obtain ⟨_, _, _, _, rd, hform⟩ := exec_form i lastTs prev m
  rw [hform, Host.Outcome.next.injEq] at h
  subst h
  exact ⟨rd.toList, rfl, hform p r o⟩

/-! ### Consuming events -/

/-- What is offered next plays no part in consuming an event (R5). -/
theorem consume_of_other_pending (c : Config) (s : State) (e : EventWord) (p : List Offer) :
    consume c { s with pending := p } e = { consume c s e with pending := p } := by
  obtain ⟨lastTs, prev, m, p₀, r, o⟩ := s
  obtain ⟨_, _, _, _, hform⟩ := edge_form c (eventLevel e) (eventTs e) lastTs prev m
  simp only [consume, hform]

theorem runEvents_of_other_pending (c : Config) (s : State) (events : List EventWord) (p : List Offer) :
    runEvents c { s with pending := p } events = { runEvents c s events with pending := p } := by
  induction events generalizing s with
  | nil => rfl
  | cons e es ih => rw [runEvents_cons, runEvents_cons, consume_of_other_pending, ih]

/-- A step with an event offered first consumes that event (R5, R60). -/
theorem step_of_event (s : State) (e : EventWord) (rest : List Offer) (h : s.pending = .event e :: rest) :
    step s = .next { consume config s e with pending := rest } := by
  calc step s = exec (.edge (eventLevel e) (eventTs e)) { s with pending := rest } :=
        step_of_takeOffer s _ _ _ (takeOffer_of_pending s _ rest h) rfl
    _ = .next (consume config { s with pending := rest } e) := exec_edge ..
    _ = .next { consume config s e with pending := rest } := by rw [consume_of_other_pending]

/-! ### The obligations -/

/-- Settles O53: the step takes the same offer whatever the output is, and its instruction appends the same readings. -/
theorem noStepDependsOnTheOutputList : Obligations.NoStepDependsOnTheOutputList := by
  intro s t o h
  obtain ⟨hp, rfl⟩ | ⟨offer, i, p, htake, hdec, hexec⟩ := step_next_cases s t h
  · exact ⟨[], by simp, by rw [step_of_no_offer { s with out := o } hp, List.append_nil]⟩
  · obtain ⟨l, hout, hother⟩ := exec_of_other_output i _ t o hexec
    have htake' := takeOffer_of_other_output s _ offer o htake
    exact ⟨l, hout, (step_of_takeOffer _ _ offer i htake' hdec).trans hother⟩

/-- Settles O55, by induction on the events offered: each step consumes the first of them. -/
theorem stepsOverOfferedEventsAreARun : Obligations.StepsOverOfferedEventsAreARun := by
  intro events
  induction events with
  | nil =>
    intro s (hp : s.pending = [])
    exact congrArg Host.Outcome.next (state_ext rfl rfl rfl hp rfl rfl)
  | cons e es ih =>
    intro s hp
    have hstep := step_of_event s e (es.map Offer.event) hp
    rw [List.length_cons, core_run_next es.length s _ hstep, ih _ rfl, runEvents_of_other_pending, runEvents_cons]

/-- Settles O9: the decoder's answers are well formed, and the step is `exec` on what taking the offer leaves. -/
theorem stepRunsTheOfferedInstruction : Obligations.StepRunsTheOfferedInstruction := by
  intro s o rest i hp hdec
  refine ⟨decode_wf o i hdec, ?_⟩
  rw [step_of_takeOffer s _ o i (takeOffer_of_pending s o rest hp) hdec]
  cases o <;> rfl

/-- Settles O47: of the three kinds of rows, EDGE and RESET are not sub-blocks, and the third kind writes its answer only. -/
theorem subBlocksChangeNoState : Obligations.SubBlocksChangeNoState := by
  intro i s t hsub h
  obtain ⟨level, ts, rfl⟩ | rfl | ⟨r, hi⟩ := instr_kinds i
  · cases level <;> exact hsub.elim
  · exact hsub.elim
  · rw [hi, Host.Outcome.next.injEq] at h
    subst h
    exact ⟨rfl, rfl, rfl, rfl, rfl, fun _ => rfl⟩

end Sys2Proof.Machine
end

section
/-! SUPPORT. What an instruction and an EDGE leave in CORE's own state; then the statements of 10_state.md: the buffer and
`last_ts` after an operation, the invariant at reset and over a step, well-formed decoding, and independent lines. -/
namespace Sys2Proof.Machine

/-! ### What an instruction leaves -/

/-- What an instruction that answers a next state did: an EDGE, a RESET, or a sub-block's answer, which puts no reading on the
`rd` ports. -/
theorem exec_next_cases (i : Instr) (s t : State) (h : exec i s = .next t) :
    (∃ level ts, i = .edge level ts ∧ t = edge config level ts s) ∨
    (i = .reset ∧ t = resetCore config s) ∨
    ∃ r, t = { s with result := r } ∧ t.rdPort = none := by
  cases i with
  | edgeL ts => exact .inl ⟨.low, ts, rfl, (Host.Outcome.next.inj h).symm⟩
  | edgeH ts => exact .inl ⟨.high, ts, rfl, (Host.Outcome.next.inj h).symm⟩
  | reset => exact .inr (.inl ⟨rfl, (Host.Outcome.next.inj h).symm⟩)
  | classify | scan | assemble | crc8 | verify | decode =>
    obtain rfl := Host.Outcome.next.inj h
    exact .inr (.inr ⟨_, rfl, rfl⟩)

/-- What EDGE does to the buffer (R26): nothing, the clear, or one data symbol after On below capacity. -/
theorem edge_buf_cases (c : Config) (level : Level) (ts : Ts) (s : State) :
    (edge c level ts s).buf = s.buf ∨ (edge c level ts s).buf = [] ∨
    (s.prev = .on ∧ s.len ≠ c.bufCap ∧ ∃ b, (classify c level (ts - s.lastTs)).bit? = some b ∧
      (edge c level ts s).buf = s.buf ++ [b]) := by
  rw [edge_of_classify c level ts s _ rfl]
  obtain ⟨-, h⟩ | ⟨-, -, h⟩ | ⟨-, -, h⟩ | ⟨b, hbit, hprev, ⟨-, h⟩ | ⟨hlen, h⟩⟩ :=
    edgeSymbol_cases c (classify c level (ts - s.lastTs)) (s.setLastTs ts)
  · obtain ⟨_, _, _, hn⟩ | ⟨_, _, _, hn⟩ | ⟨_, hn⟩ := noisePath_cases c (s.setLastTs ts) <;>
      exact .inr (.inl (by rw [h, hn]))
  · exact .inl (by rw [h]; rfl)
  · exact .inl (by rw [h]; rfl)
  · exact .inr (.inl (by rw [h]))
  · exact .inr (.inr ⟨hprev, hlen, b, hbit, by rw [h]; rfl⟩)

/-! ### The invariant, operation by operation -/

/-- Neither sign reaches `0x800`: the magnitude has 11 bits (R68, R141). -/
theorem decodeFrame_legal (f : Frame) : readingLegal (decodeFrame f) := by
  have hmag : ((magnitude f).zeroExtend 12).toNat < 2048 := by
    rw [BitVec.zeroExtend, BitVec.toNat_setWidth_of_le (by decide)]
    exact (magnitude f).isLt
  simp only [readingLegal, decodeFrame]
  split <;> bv_omega

/-- With nothing on the `rd` ports, the invariant is about the buffer and the output list alone. -/
theorem inv_of_silent {s : State} (hbuf : Memory.wf s.buf) (hnoise : s.prev = .noise → s.buf = [])
    (hout : ∀ r ∈ s.out, readingLegal r) (hport : s.rdPort = none) : s.Inv :=
  ⟨hbuf, hnoise, hout, fun r hr => by simp [hport] at hr⟩

/-- The invariant does not speak of `last_ts`. -/
theorem setLastTs_inv {s : State} (hs : s.Inv) (ts : Ts) : (s.setLastTs ts).Inv :=
  ⟨hs.bufBounded, hs.noiseEmpty, hs.outLegal, hs.rdIsLast⟩

/-- RESET empties the buffer and puts nothing on the ports (R170). -/
theorem resetCore_inv {s : State} (hs : s.Inv) : (resetCore config s).Inv :=
  inv_of_silent (bufClear_wf s.buf) (fun _ => rfl) hs.outLegal rfl

/-- The Noise path empties the buffer, and a reading it emits is a decoded frame (R92, R97). -/
theorem noisePath_inv {s : State} (hs : s.Inv) : (noisePath config s).Inv := by
  obtain ⟨r, -, htry, h⟩ | ⟨x, -, -, h⟩ | ⟨-, h⟩ := noisePath_cases config s <;> rw [h]
  · obtain ⟨_, f, _, _, _, rfl⟩ := tryDecode_ok config s.buf r htry
    have hout : ∀ q ∈ s.out ++ [decodeFrame f], readingLegal q := by
      intro q hq
      obtain hq | hq := List.mem_append.mp hq
      · exact hs.outLegal q hq
      · rw [List.mem_singleton.mp hq]
        exact decodeFrame_legal f
    exact ⟨bufClear_wf s.buf, fun _ => rfl, hout, fun q hq => List.getLast?_concat.trans hq⟩
  · exact inv_of_silent (bufClear_wf s.buf) (fun _ => rfl) hs.outLegal rfl
  · exact inv_of_silent (bufClear_wf s.buf) (fun _ => rfl) hs.outLegal rfl

/-- Every path of EDGE after its classification: only an append below capacity lengthens the buffer, and where `prev` becomes
Noise the buffer is cleared (R92 to R98). -/
theorem edgeSymbol_inv {s : State} (hs : s.Inv) (sym : Symbol) : (edgeSymbol config sym s).Inv := by
  obtain ⟨-, h⟩ | ⟨-, -, h⟩ | ⟨hsym, -, h⟩ | ⟨b, hbit, -, ⟨-, h⟩ | ⟨hlen, h⟩⟩ := edgeSymbol_cases config sym s <;> rw [h]
  · exact noisePath_inv hs
  · exact inv_of_silent hs.bufBounded hs.noiseEmpty hs.outLegal rfl
  · exact inv_of_silent hs.bufBounded (fun hnoise => absurd hnoise hsym) hs.outLegal rfl
  · exact inv_of_silent (bufClear_wf s.buf) (fun _ => rfl) hs.outLegal rfl
  · have hnoise : sym ≠ .noise := by
      rintro rfl
      nomatch hbit
    exact inv_of_silent (bufAppend_wf s.buf b (lt_of_le_of_ne hs.bufBounded hlen)) (fun h => absurd h hnoise) hs.outLegal rfl

theorem edge_inv {s : State} (hs : s.Inv) (level : Level) (ts : Ts) : (edge config level ts s).Inv :=
  edgeSymbol_inv (setLastTs_inv hs ts) _

theorem exec_inv {i : Instr} {s t : State} (hs : s.Inv) (h : exec i s = .next t) : t.Inv := by
  obtain ⟨level, ts, -, rfl⟩ | ⟨-, rfl⟩ | ⟨r, rfl, hport⟩ := exec_next_cases i s t h
  · exact edge_inv hs level ts
  · exact resetCore_inv hs
  · exact inv_of_silent hs.bufBounded hs.noiseEmpty hs.outLegal hport

/-! ### The obligations -/

/-- Settles O50: a step waits, or runs one instruction after taking its offer, which the invariant does not speak of. -/
theorem everyStepKeepsTheInvariant : Obligations.EveryStepKeepsTheInvariant := by
  intro s t hs h
  obtain ⟨-, rfl⟩ | ⟨_, i, p, -, -, hexec⟩ := step_next_cases s t h
  · exact inv_of_silent hs.bufBounded hs.noiseEmpty hs.outLegal rfl
  · have htaken : State.Inv { s with pending := p } := ⟨hs.bufBounded, hs.noiseEmpty, hs.outLegal, hs.rdIsLast⟩
    exact exec_inv htaken hexec

/-- Settles O49: only EDGE can append; RESET clears, and a sub-block leaves the buffer. -/
theorem bufferGrowsByOneOrIsCleared : Obligations.BufferGrowsByOneOrIsCleared := by
  intro i s t h
  constructor
  · obtain ⟨level, ts, rfl, rfl⟩ | ⟨-, rfl⟩ | ⟨r, rfl, -⟩ := exec_next_cases i s t h
    · obtain hkept | hcleared | ⟨hprev, hlen, b, hbit, happend⟩ := edge_buf_cases config level ts s
      · exact .inl hkept
      · exact .inr (.inl hcleared)
      · exact .inr (.inr ⟨hprev, hlen, level, ts, b, rfl, hbit, happend⟩)
    · exact .inr (.inl rfl)
    · exact .inl rfl
  · rintro level ts rfl
    obtain rfl := Host.Outcome.next.inj ((exec_edge level ts s).symm.trans h)
    exact (edge_lastTs_pending config level ts s).1

/-- Settles O6: the decoder bounds the one operand that could be too long. -/
theorem decodedInstructionsAreWellFormed : Obligations.DecodedInstructionsAreWellFormed :=
  decode_wf

/-- Settles O51: at reset nothing is buffered, nothing has been emitted and the ports are idle. -/
theorem resetMeetsTheInvariant : Obligations.ResetMeetsTheInvariant :=
  inv_of_silent reset_buf_wf (fun _ => rfl) (fun _ hr => nomatch hr) rfl

/-- Settles O54: an event and a RESET of line `k` modify entry `k` of the list of instances. -/
theorem linesAreIndependent : Obligations.LinesAreIndependent := by
  intro c k j level ts ls
  refine ⟨List.getElem?_modify_eq _ k ls, fun hjk => ⟨?_, ?_⟩⟩
  · exact List.getElem?_modify_ne _ ls hjk.symm
  · exact List.getElem?_modify_ne _ ls hjk.symm

end Sys2Proof.Machine
end

section
/-! SUPPORT. Words and their fields, and what one step leaves on the ports and in what is offered; then the statements of
30_encoding.md: decoding and encoding undo each other, operand words bit by bit, symbol codes, the ports, the first nibble of
a frame, and SYNC (R60 to R75). -/
namespace Sys2Proof.Machine

/-! ### Slices of a word -/

/-- Two adjacent slices are one (R10). -/
theorem slice_append_slice {w : Nat} (v : BitVec w) (hi lo k n : Nat) (h : hi = lo + n) :
    slice v hi k ++ slice v lo n = slice v lo (k + n) := by
  subst h
  apply BitVec.eq_of_getLsbD_eq
  intro i hi
  simp only [slice, BitVec.getLsbD_append, BitVec.getLsbD_extractLsb']
  by_cases hn : i < n
  · simp [hn, hi]
  · simp [hn, hi, show i - n < k by omega, show lo + n + (i - n) = lo + i by omega]

theorem slice_toNat {w : Nat} (v : BitVec w) (lo n : Nat) : (slice v lo n).toNat = (v >>> lo).toNat % 2 ^ n := by
  simp [slice, BitVec.extractLsb'_toNat]

/-- A slice that reaches the top of the word is the word shifted down. -/
theorem slice_top_toNat {w : Nat} (v : BitVec w) {lo n : Nat} (h : w = lo + n) :
    (slice v lo n).toNat = (v >>> lo).toNat := by
  have hlt : (v >>> lo).toNat < 2 ^ n := by
    rw [BitVec.toNat_ushiftRight, Nat.shiftRight_eq_div_pow]
    apply Nat.div_lt_of_lt_mul
    rw [← pow_add, ← h]
    exact v.isLt
  rw [slice_toNat, Nat.mod_eq_of_lt hlt]

/-! ### Levels and symbols -/

@[simp] theorem ofBit_bit (level : Level) : Level.ofBit level.bit = level := by
  cases level <;> rfl

@[simp] theorem bit_ofBit (b : BitVec 1) : (Level.ofBit b).bit = b := by
  revert b
  decide

@[simp] theorem ofCode_code (sym : Symbol) : Symbol.ofCode sym.code = sym := by
  cases sym <;> rfl

@[simp] theorem code_ofCode (k : BitVec 2) : (Symbol.ofCode k).code = k := by
  revert k
  decide

/-! ### The event word -/

theorem encode_edge (level : Level) (ts : Ts) : encode (.edge level ts) = .event (eventWord level ts) := by
  cases level <;> rfl

/-- The level of an event word is its bit 64 (R60, R61). -/
theorem eventLevel_eq (e : EventWord) : eventLevel e = if e.getLsbD 64 then .high else .low := by
  have hbit : slice e 64 1 = BitVec.ofBool (e.getLsbD 64) := by
    apply BitVec.eq_of_getLsbD_eq
    intro i hi
    obtain rfl : i = 0 := by omega
    simp [slice]
  rw [eventLevel, hbit]
  cases e.getLsbD 64 <;> rfl

theorem eventTs_eq (e : EventWord) : eventTs e = e.setWidth 64 :=
  (BitVec.setWidth_eq_extractLsb' (by decide)).symm

/-- An event word is the word of its level and its timestamp (R60). -/
theorem eventWord_of_fields (e : EventWord) : eventWord (eventLevel e) (eventTs e) = e := by
  calc eventWord (eventLevel e) (eventTs e) = slice e 64 1 ++ slice e 0 64 := by
        rw [eventWord, eventLevel, bit_ofBit, eventTs]
    _ = e := by rw [slice_append_slice e 64 0 1 64 rfl]; exact slice_all e

/-! ### The operand words of SCAN and ASSEMBLE -/

/-- Entry `k` of a buffer operand is bit `127 - k` of its word (R71). -/
theorem bufRead_bufOfWord {w : Nat} (v : BitVec w) {n k : Nat} (hn : n ≤ 128) (hk : k < n) :
    bufRead (bufOfWord n (slice v 0 128)) k = some (v.getLsbD (127 - k)) := by
  have hk' : k < 128 := by omega
  have hbit : (slice v 0 128).getMsbD k = v.getLsbD (127 - k) := by
    simp [BitVec.getMsbD, slice, hk', show 127 - k < 128 by omega]
  simpa [bufRead, bufOfWord, hk] using hbit

theorem scanWord_len (w : BitVec 136) : (slice w 128 8).toNat = (w >>> 128).toNat :=
  slice_top_toNat w rfl

theorem assembleWord_len (w : BitVec 143) : (slice w 128 8).toNat = (w >>> 128).toNat % 256 :=
  slice_toNat w 128 8

theorem assembleWord_start (w : BitVec 143) : (slice w 136 7).toNat = (w >>> 136).toNat :=
  slice_top_toNat w rfl

theorem decode_scan_of_le (w : BitVec 136) (h : (slice w 128 8).toNat ≤ 128) :
    decode (.scan w) = .ok (.scan (bufOfWord (slice w 128 8).toNat (slice w 0 128))) :=
  if_pos h

theorem decode_scan_of_gt (w : BitVec 136) (h : 128 < (w >>> 128).toNat) : decode (.scan w) = .error .scanLen :=
  if_neg (by rw [scanWord_len, config_bufCap]; omega)

theorem decode_assemble_of_le (w : BitVec 143) (h : (slice w 128 8).toNat ≤ 128) :
    decode (.assemble w) = .ok (.assemble (slice w 136 7) (bufOfWord (slice w 128 8).toNat (slice w 0 128))) :=
  if_pos h

theorem decode_assemble_of_gt (w : BitVec 143) (h : 128 < (w >>> 128).toNat % 256) :
    decode (.assemble w) = .error .assembleLen :=
  if_neg (by rw [assembleWord_len, config_bufCap]; omega)

/-- The decoder's only refusals are the two lengths no buffer has (R23, R72). -/
theorem decode_ok_or_bad_len (o : Offer) :
    (∃ i, decode o = .ok i) ∨ (∃ w, o = .scan w ∧ 128 < (w >>> 128).toNat) ∨
    ∃ w, o = .assemble w ∧ 128 < (w >>> 128).toNat % 256 := by
  cases o with
  | scan w =>
    by_cases hlen : (slice w 128 8).toNat ≤ 128
    · exact .inl ⟨_, decode_scan_of_le w hlen⟩
    · exact .inr (.inl ⟨w, rfl, by rw [← scanWord_len]; omega⟩)
  | assemble w =>
    by_cases hlen : (slice w 128 8).toNat ≤ 128
    · exact .inl ⟨_, decode_assemble_of_le w hlen⟩
    · exact .inr (.inr ⟨w, rfl, by rw [← assembleWord_len]; omega⟩)
  | event | rst | rstEvent | classify | crc8 | verify | decode => exact .inl ⟨_, rfl⟩

/-! ### Decoding what was encoded -/

theorem decode_encode_scan (buf : List Bit) (h : buf.length ≤ 128) : decode (encode (.scan buf)) = .ok (.scan buf) := by
  have hlen : slice (lenField buf ++ wordOfBuf buf) 128 8 = lenField buf := by
    rw [slice_append_high _ _ 128 0 8 rfl, slice_all]
  have hbuf : slice (lenField buf ++ wordOfBuf buf) 0 128 = wordOfBuf buf := slice_append_low _ _
  have hnat := lenField_toNat buf h
  rw [encode, decode_scan_of_le _ (by rwa [hlen, hnat]), hlen, hbuf, hnat, bufOfWord_wordOfBuf buf h]

theorem decode_encode_assemble (start : BitVec 7) (buf : List Bit) (h : buf.length ≤ 128) :
    decode (encode (.assemble start buf)) = .ok (.assemble start buf) := by
  have hstart : slice (start ++ lenField buf ++ wordOfBuf buf) 136 7 = start := by
    rw [slice_append_high _ _ 136 8 7 rfl, slice_append_high _ _ 8 0 7 rfl, slice_all]
  have hlen : slice (start ++ lenField buf ++ wordOfBuf buf) 128 8 = lenField buf := by
    rw [slice_append_high _ _ 128 0 8 rfl, slice_append_low]
  have hbuf : slice (start ++ lenField buf ++ wordOfBuf buf) 0 128 = wordOfBuf buf := slice_append_low _ _
  have hnat := lenField_toNat buf h
  rw [encode, decode_assemble_of_le _ (by rwa [hlen, hnat]), hstart, hlen, hbuf, hnat, bufOfWord_wordOfBuf buf h]

theorem decode_encode_edge (level : Level) (ts : Ts) : decode (encode (.edge level ts)) = .ok (.edge level ts) := by
  rw [encode_edge, decode, eventLevel_eventWord, eventTs_eventWord]

theorem decode_encode_classify (level : Level) (dur : Ts) :
    decode (encode (.classify level dur)) = .ok (.classify level dur) := by
  rw [encode, decode, slice_append_high level.bit dur 64 0 1 rfl, slice_all, ofBit_bit, slice_append_low]

theorem decode_encode_crc8 (b0 b1 b2 b3 : Byte) : decode (encode (.crc8 b0 b1 b2 b3)) = .ok (.crc8 b0 b1 b2 b3) := by
  have h0 : slice (b0 ++ b1 ++ b2 ++ b3) 24 8 = b0 := by
    rw [slice_append_high _ b3 24 16 8 rfl, slice_append_high _ b2 16 8 8 rfl, slice_append_high _ b1 8 0 8 rfl, slice_all]
  have h1 : slice (b0 ++ b1 ++ b2 ++ b3) 16 8 = b1 := by
    rw [slice_append_high _ b3 16 8 8 rfl, slice_append_high _ b2 8 0 8 rfl, slice_append_low]
  have h2 : slice (b0 ++ b1 ++ b2 ++ b3) 8 8 = b2 := by
    rw [slice_append_high _ b3 8 0 8 rfl, slice_append_low]
  have h3 : slice (b0 ++ b1 ++ b2 ++ b3) 0 8 = b3 := slice_append_low _ _
  rw [encode, decode, h0, h1, h2, h3]

/-- R60, R71: every row, every operand its word admits. -/
theorem decode_encode (i : Instr) (h : i.wf = true) : decode (encode i) = .ok i := by
  cases i with
  | edgeL ts => exact decode_encode_edge .low ts
  | edgeH ts => exact decode_encode_edge .high ts
  | reset => rfl
  | classify level dur => exact decode_encode_classify level dur
  | scan buf => exact decode_encode_scan buf (of_decide_eq_true h)
  | assemble start buf => exact decode_encode_assemble start buf (of_decide_eq_true h)
  | crc8 b0 b1 b2 b3 => exact decode_encode_crc8 b0 b1 b2 b3
  | verify f => exact congrArg (Except.ok ∘ Instr.verify) (ofWord_word_frame f)
  | decode f => exact congrArg (Except.ok ∘ Instr.decode) (ofWord_word_frame f)

/-- A word is read as the instruction it is the word of. -/
theorem decode_of_encode_eq {i : Instr} {o : Offer} (hwf : i.wf = true) (h : encode i = o) : decode o = .ok i :=
  h ▸ decode_encode i hwf

/-- Only an event offered without `rst` is read as an EDGE (R72, R170). -/
theorem event_of_decode_edge {o : Offer} {level : Level} {ts : Ts} (h : decode o = .ok (.edge level ts)) :
    ∃ e, o = .event e := by
  cases o with
  | event e => exact ⟨e, rfl⟩
  | scan w =>
    simp only [decode] at h
    split at h <;> cases level <;> nomatch h
  | assemble w =>
    simp only [decode] at h
    split at h <;> cases level <;> nomatch h
  | rst | rstEvent | classify | crc8 | verify | decode => cases level <;> nomatch h

/-! ### Table words -/

/-- A table word presents nothing together with `rst`. -/
theorem offerOfTableWord_ne_rstEvent (nbits w : Nat) (e : EventWord) : offerOfTableWord nbits w ≠ some (.rstEvent e) := by
  unfold offerOfTableWord
  simp only
  split_ifs <;> simp

theorem decodeTableWord_some {nbits w : Nat} {i : Instr} (h : decodeTableWord nbits w = some i) :
    ∃ o, offerOfTableWord nbits w = some o ∧ decode o = .ok i := by
  unfold decodeTableWord at h
  split at h
  · nomatch h
  · next o ho =>
    split at h
    · next j hj => exact ⟨o, ho, hj.trans (congrArg Except.ok (Option.some.inj h))⟩
    · nomatch h

theorem withFetchWord_of_offer (s : State) {nbits w : Nat} {o : Offer} (h : offerOfTableWord nbits w = some o) :
    s.withFetchWord nbits w = { s with pending := o :: s.pending } := by
  simp [State.withFetchWord, h, State.setPending]

/-! ### What is offered, and what a step answers -/

theorem afterTaking_of_ne_rstEvent {o : Offer} (h : ∀ e, o ≠ .rstEvent e) (rest : List Offer) :
    afterTaking o rest = rest := by
  cases o with
  | rstEvent e => exact absurd rfl (h e)
  | event | rst | classify | scan | assemble | crc8 | verify | decode => rfl

theorem pending_of_takeOffer {s s' : State} {o : Offer} (h : takeOffer s = some (o, s')) : ∃ rest, s.pending = o :: rest := by
  cases hp : s.pending with
  | nil => simp [takeOffer_nil s hp] at h
  | cons x rest =>
    rw [takeOffer_of_pending s x rest hp, Option.some.injEq, Prod.mk.injEq] at h
    obtain ⟨rfl, -⟩ := h
    exact ⟨rest, rfl⟩

theorem step_of_reject (s : State) {o : Offer} {rest : List Offer} {r : DecodeReject} (hp : s.pending = o :: rest)
    (hd : decode o = .error r) : step s = .refused (.badOperandWord r) := by
  simp [step, takeOffer_of_pending s o rest hp, hd]

/-- Every instruction completes, keeps what is offered and appends at most one reading (R72, R100). -/
theorem exec_completes (i : Instr) (s : State) :
    ∃ t rd, exec i s = .next t ∧ t.pending = s.pending ∧ t.out = s.out ++ Option.toList rd := by
  obtain ⟨lastTs, prev, m, p, r, o⟩ := s
  obtain ⟨_, _, _, _, rd, hform⟩ := exec_form i lastTs prev m
  exact ⟨_, rd, hform p r o, rfl, rfl⟩

/-- `ev_valid` and `ev_ready` are both 1 where an event is offered without `rst` (R67). -/
theorem validAndReady_iff (s : State) :
    (s.evValid = true ∧ s.evReady = true) ↔ ∃ e rest, s.pending = .event e :: rest := by
  simp only [State.evValid, State.evReady, State.offeredEvent, State.rst]
  cases s.pending with
  | nil => simp
  | cons o rest => cases o <;> simp

/-! ### What appears on the ports -/

/-- EDGE puts on the `rd` ports the reading it appends (R67). -/
theorem edge_out_eq_rdPort (c : Config) (level : Level) (ts : Ts) (s : State) :
    (edge c level ts s).out = s.out ++ (edge c level ts s).rdPort.toList := by
  obtain ⟨lastTs, prev, m, p, r, o⟩ := s
  obtain ⟨_, _, _, _, hform⟩ := edge_form c level ts lastTs prev m
  rw [hform, State.rdPort]

/-- A step appends to the output what then stands on the `rd` ports (R67). -/
theorem step_out_eq_rdPort {s t : State} (h : step s = .next t) : t.out = s.out ++ t.rdPort.toList := by
  obtain ⟨-, rfl⟩ | ⟨_, i, p, -, -, hexec⟩ := step_next_cases s t h
  · simp [State.rdPort]
  · obtain ⟨level, ts, -, rfl⟩ | ⟨-, rfl⟩ | ⟨r, rfl, hport⟩ := exec_next_cases i _ t hexec
    · exact edge_out_eq_rdPort config level ts { s with pending := p }
    · simp [State.rdPort, resetCore_eq]
    · simp [hport]

/-- The ports carry both fields of the reading (R68). -/
theorem rdFields_of_rdPort {s : State} {r : Reading} (h : s.rdPort = some r) :
    s.rdTempTenths = some r.tempTenths ∧ s.rdHum = some r.hum := by
  have hword := ofWord_word_reading r
  rw [State.rdTempTenths, State.rdHum, h]
  exact ⟨congrArg (some ∘ Reading.tempTenths) hword, congrArg (some ∘ Reading.hum) hword⟩

/-- What is no EDGE emits nothing and answers no label (R67). -/
theorem exec_of_no_edge {i : Instr} {s t : State} (hi : ∀ level ts, i ≠ .edge level ts) (h : exec i s = .next t) :
    t.pending = s.pending ∧ t.out = s.out ∧ ∀ label rd, t.result ≠ .edge label rd := by
  cases i with
  | edgeL ts => exact absurd rfl (hi .low ts)
  | edgeH ts => exact absurd rfl (hi .high ts)
  | reset | classify | scan | assemble | crc8 | verify | decode =>
    obtain rfl := Host.Outcome.next.inj h
    exact ⟨rfl, rfl, nofun⟩

/-! ### The preamble remainder, and a gap -/

/-- The second half of a preamble match stands first from 4 after it on (R64, R66). -/
theorem drop_of_scan {m : Memory} {i : Nat} (h : scan config m = some i) :
    m.drop (i + 4) = [false, true, false, false] ++ m.drop (i + 8) := by
  obtain ⟨-, hmatch, -⟩ := scan_some config m i h
  have hread : ∀ k, k < 8 → m[i + k]? = [true, true, true, true, false, true, false, false][k]? :=
    (matchAt_iff config m i).mp hmatch
  apply List.ext_getElem?
  intro k
  rw [List.getElem?_drop]
  match k with
  | 0 => exact hread 4 (by decide)
  | 1 => exact hread 5 (by decide)
  | 2 => exact hread 6 (by decide)
  | 3 => exact hread 7 (by decide)
  | k + 4 => exact (congrArg (m[·]?) (by omega)).trans List.getElem?_drop.symm

/-- A byte whose first four bits are the preamble remainder, at each of its 16 values (R66). -/
theorem byte_of_remainder {l : List Bit} (h : l.length = 4) :
    slice (([false, true, false, false] ++ l).foldl foldBit 0) 4 4 = 0b0100 ∧
    0x40 ≤ (([false, true, false, false] ++ l).foldl foldBit 0).toNat ∧
    (([false, true, false, false] ++ l).foldl foldBit 0).toNat ≤ 0x4F := by
  match l, h with
  | [a, b, c, d], _ =>
    revert a b c d
    decide

/-- The Noise path forgets `prev` and the buffer, whatever its attempt gave (R92). -/
theorem noisePath_forgets (c : Config) (s : State) : (noisePath c s).prev = .noise ∧ (noisePath c s).buf = [] := by
  obtain ⟨_, -, -, h⟩ | ⟨_, -, -, h⟩ | ⟨-, h⟩ := noisePath_cases c s <;> rw [h] <;> exact ⟨rfl, rfl⟩

/-- A run of `SYNC` is two EDGEs of level High, 5000 microseconds apart (R75). -/
theorem runEvents_sync (c : Config) (s : State) (t0 : Ts) :
    runEvents c s (traceEvents t0 syncItems) = edge c .high (t0 + 5000 + 5000) (edge c .high (t0 + 5000) s) := by
  have htrace : traceEvents t0 syncItems = [eventWord .high (t0 + 5000), eventWord .high (t0 + 5000 + 5000)] := rfl
  rw [htrace, runEvents_cons, runEvents_cons, runEvents_nil, consume_eventWord, consume_eventWord]

/-! ### The obligations -/

/-- Settles O1: row by row, each field of the word is cut out as it was put in. -/
theorem decodeOfEncodeIsInstruction : Obligations.DecodeOfEncodeIsInstruction :=
  decode_encode

/-- Settles O2: bit 64 and the 64 bits below it are the fields the decoder cuts out, and together they are the word. -/
theorem everyEventWordIsAnEdge : Obligations.EveryEventWordIsAnEdge := by
  intro e
  rw [← eventLevel_eq, ← eventTs_eq]
  exact ⟨rfl, by rw [encode_edge, eventWord_of_fields]⟩

/-- Settles O3: the slices a row cuts out lie next to each other and cover the word. -/
theorem operandWordsKeepEveryBit : Obligations.OperandWordsKeepEveryBit := by
  refine ⟨fun w => ⟨_, _, rfl, ?_⟩, fun w => ⟨_, _, _, _, rfl, ?_⟩, fun w => ⟨_, rfl, ?_⟩, fun w => ⟨_, rfl, ?_⟩⟩
  · rw [encode, bit_ofBit, slice_append_slice w 64 0 1 64 rfl]
    exact congrArg Offer.classify (slice_all w)
  · rw [encode, slice_append_slice w 24 16 8 8 rfl, slice_append_slice w 16 8 (8 + 8) 8 rfl,
      slice_append_slice w 8 0 (8 + 8 + 8) 8 rfl]
    exact congrArg Offer.crc8 (slice_all w)
  · exact congrArg Offer.verify (word_ofWord_frame w)
  · exact congrArg Offer.decode (word_ofWord_frame w)

/-- Settles O4: the decoder's two answers to a SCAN word, and its buffer operand bit by bit. -/
theorem scanWordReadsItsFirstLenBits : Obligations.ScanWordReadsItsFirstLenBits := by
  refine fun w => ⟨fun h => ?_, decode_scan_of_gt w⟩
  rw [← scanWord_len] at h ⊢
  refine ⟨_, decode_scan_of_le w h, bufOfWord_length _ _, fun k hk => bufRead_bufOfWord w h ?_⟩
  rwa [bufOfWord_length] at hk

/-- Settles O5: the same for ASSEMBLE, whose `start` reaches the top of the word. -/
theorem assembleWordReadsItsFirstLenBits : Obligations.AssembleWordReadsItsFirstLenBits := by
  refine fun w => ⟨fun h => ?_, decode_assemble_of_gt w⟩
  rw [← assembleWord_len] at h ⊢
  refine ⟨_, _, decode_assemble_of_le w h, assembleWord_start w, bufOfWord_length _ _, fun k hk => bufRead_bufOfWord w h ?_⟩
  rwa [bufOfWord_length] at hk

/-- Settles O14: the output grows by what stands on the ports, so it grows exactly when something stands there. -/
theorem readingPortsValidForOneTransfer : Obligations.ReadingPortsValidForOneTransfer := by
  intro s t h
  have hout := step_out_eq_rdPort h
  refine ⟨?_, fun r hr => ⟨by rw [hout, hr]; rfl, rdFields_of_rdPort hr⟩⟩
  rw [hout, State.rdValid]
  cases t.rdPort <;> simp

/-- Settles O15: every instruction completes, so a step stops only where the decoder refuses the first offer. -/
theorem stepStopsOnlyOnBadOperandWords : Obligations.StepStopsOnlyOnBadOperandWords := by
  intro s
  have hscan : ∀ w rest, s.pending = .scan w :: rest → 128 < (w >>> 128).toNat →
      step s = .refused (.badOperandWord .scanLen) :=
    fun w rest hp hlen => step_of_reject s hp (decode_scan_of_gt w hlen)
  have hassemble : ∀ w rest, s.pending = .assemble w :: rest → 128 < (w >>> 128).toNat % 256 →
      step s = .refused (.badOperandWord .assembleLen) :=
    fun w rest hp hlen => step_of_reject s hp (decode_assemble_of_gt w hlen)
  refine ⟨⟨?_, ?_⟩, hscan, hassemble⟩
  · rintro ⟨t, ht⟩
    constructor
    · intro w rest hp
      by_contra hlen
      nomatch ht.symm.trans (hscan w rest hp (Nat.lt_of_not_le hlen))
    · intro w rest hp
      by_contra hlen
      nomatch ht.symm.trans (hassemble w rest hp (Nat.lt_of_not_le hlen))
  · rintro ⟨hscanLen, hassembleLen⟩
    cases hp : s.pending with
    | nil => exact ⟨_, step_of_no_offer s hp⟩
    | cons o rest =>
      obtain ⟨i, hi⟩ | ⟨w, rfl, hlen⟩ | ⟨w, rfl, hlen⟩ := decode_ok_or_bad_len o
      · obtain ⟨t, -, ht, -, -⟩ := exec_completes i { s with pending := afterTaking o rest }
        exact ⟨t, (step_of_takeOffer s _ o i (takeOffer_of_pending s o rest hp) hi).trans ht⟩
      · exact absurd (hscanLen w rest hp) (Nat.not_le_of_lt hlen)
      · exact absurd (hassembleLen w rest hp) (Nat.not_le_of_lt hlen)

/-- Settles O26: byte 0 is made of the preamble remainder and four more symbols. -/
theorem firstNibbleIsThePreambleRemainder : Obligations.FirstNibbleIsThePreambleRemainder := by
  intro m i f hscan hassemble
  obtain ⟨hlen, rfl⟩ := assemble_some config m _ f hassemble
  have hbyte : (frameOf (m.drop (i + config.frameOff)))[0] =
      ([false, true, false, false] ++ (m.drop (i + 8)).take 4).foldl foldBit 0 := by
    rw [frameOf_getElem _ 0 (by decide), byteOf, config_frameOff, drop_of_scan hscan]
    rfl
  rw [hbyte]
  apply byte_of_remainder
  rw [config_frameBits, config_frameOff] at hlen
  rw [List.length_take, List.length_drop]
  omega

/-- Settles O48: the reading that may be appended is an `Option`. -/
theorem everyInstructionCompletes : Obligations.EveryInstructionCompletes := by
  intro i s
  obtain ⟨t, rd, hexec, hpending, hout⟩ := exec_completes i s
  exact ⟨t, hexec, hpending, rd.toList, hout, Option.length_toList_le⟩

/-- Settles O56: the second gap lasts 5000 microseconds whatever the first one did, and that is Noise. -/
theorem syncForgetsThePast : Obligations.SyncForgetsThePast := by
  intro s t0
  have hlast : (edge config .high (t0 + 5000) s).lastTs = t0 + 5000 := (edge_lastTs_pending config .high _ s).1
  have hnoise : classify config .high (t0 + 5000 + 5000 - (edge config .high (t0 + 5000) s).lastTs) = .noise := by
    rw [hlast, elapsed]
    decide
  obtain ⟨hprev, hbuf⟩ := noisePath_forgets config
    ((edge config .high (t0 + 5000) s).setLastTs (t0 + 5000 + 5000))
  have hsecond := edge_of_classify config .high (t0 + 5000 + 5000) (edge config .high (t0 + 5000) s) .noise hnoise
  rw [runEvents_sync]
  refine ⟨?_, ?_, (edge_lastTs_pending config .high _ _).1.trans (BitVec.add_assoc t0 5000 5000)⟩
  · rw [hsecond]
    exact hprev
  · rw [hsecond]
    exact hbuf

/-- Settles O7: each word is the one its instruction encodes to. -/
theorem writtenOutWordsDecode : Obligations.WrittenOutWordsDecode := by
  refine ⟨?_, ?_, ?_, ?_, ?_, ?_, ?_, ?_, ?_⟩ <;> exact decode_of_encode_eq rfl (by decide)

/-- Settles O8: four symbols, four codes. -/
theorem symbolCodesAreAllUsed : Obligations.SymbolCodesAreAllUsed :=
  ⟨rfl, rfl, rfl, rfl, ofCode_code, code_ofCode⟩

/-- Settles O10: the word's offer stands first, and taking it leaves the offers that stood before it. -/
theorem tableWordRunsAsTheNextInstruction : Obligations.TableWordRunsAsTheNextInstruction := by
  intro s nbits w i h
  obtain ⟨o, hoffer, hdec⟩ := decodeTableWord_some h
  have hrst : ∀ e, o ≠ .rstEvent e := by
    rintro e rfl
    exact offerOfTableWord_ne_rstEvent nbits w e hoffer
  rw [withFetchWord_of_offer s hoffer, step_of_takeOffer _ _ o i (takeOffer_of_pending _ o s.pending rfl) hdec,
    afterTaking_of_ne_rstEvent hrst]

/-- Settles O13: with an event first and no `rst` the step is its EDGE; otherwise the first offer is no event on its own, is
read as no EDGE, and taking it keeps the events. -/
theorem eventConsumedExactlyWhenValidAndReady : Obligations.EventConsumedExactlyWhenValidAndReady := by
  intro s
  refine ⟨by simp [State.evReady], validAndReady_iff s, fun e rest hp => ⟨?_, (edge_lastTs_pending ..).2⟩, fun hnot t h => ?_⟩
  · rw [step_of_event s e rest hp, ← consume_of_other_pending]
    rfl
  · obtain ⟨-, rfl⟩ | ⟨o, i, p, htake, hdec, hexec⟩ := step_next_cases s t h
    · exact ⟨rfl, rfl, nofun⟩
    · have hevent : ∀ e, o ≠ .event e := by
        rintro e rfl
        exact hnot ((validAndReady_iff s).mpr ⟨e, pending_of_takeOffer htake⟩)
      have hedge : ∀ level ts, i ≠ .edge level ts := by
        rintro level ts rfl
        obtain ⟨e, he⟩ := event_of_decode_edge hdec
        exact hevent e he
      obtain ⟨hpending, hout, hresult⟩ := exec_of_no_edge hedge hexec
      exact ⟨by rw [hpending, takeOffer_offeredEvents s _ o htake hevent], hout, hresult⟩

end Sys2Proof.Machine
end

section
/-! SUPPORT. The windows of CLASSIFY as ranges of numbers under both readings of `UPPER_INCLUSIVE`; then the statements of
40_pulse_classifier.md (R80 to R83). -/
namespace Sys2Proof.Machine

/-! ### The windows under both readings -/

/-- A window of R80: the inclusive reading lets in one more duration at the upper end than the half-open one (R82). -/
theorem inWindow_config_iff (upper : Bool) (nominal : Nat) (dur : Ts) :
    inWindow { config with upperInclusive := upper } nominal dur = true ↔
      nominal - 250 ≤ dur.toNat ∧ dur.toNat < nominal + 250 + upper.toNat := by
  have hjitter : ({ config with upperInclusive := upper } : Config).jitter = 250 := rfl
  rw [inWindow_iff, micros_of_unit _ dur rfl, hjitter]
  cases upper
  · exact Iff.rfl
  · exact and_congr_right' Nat.lt_succ_iff.symm

/-- A low interval in numbers (R80). -/
theorem classify_low_eq (upper : Bool) (dur : Ts) :
    classify { config with upperInclusive := upper } .low dur =
      if 250 ≤ dur.toNat ∧ dur.toNat < 750 + upper.toNat then .shortOff
      else if 1250 ≤ dur.toNat ∧ dur.toNat < 1750 + upper.toNat then .longOff else .noise := by
  simp only [classify, inWindow_config_iff]
  rfl

/-- A high interval in numbers (R80). -/
theorem classify_high_eq (upper : Bool) (dur : Ts) :
    classify { config with upperInclusive := upper } .high dur =
      if 750 ≤ dur.toNat ∧ dur.toNat < 1250 + upper.toNat then .on else .noise := by
  simp only [classify, inWindow_config_iff]
  rfl

/-! ### The upper ends -/

/-- The three inputs that stand at the upper end of a window (R82). -/
def AtUpperEnd (level : Level) (dur : Ts) : Prop :=
  (level = .low ∧ (dur = 750 ∨ dur = 1750)) ∨ (level = .high ∧ dur = 1250)

/-- At an upper end the half-open reading leaves the window, and no other window of the level begins there. -/
theorem classify_at_upperEnd {level : Level} {dur : Ts} (h : AtUpperEnd level dur) :
    classify { config with upperInclusive := true } level dur ≠ .noise ∧
      classify { config with upperInclusive := false } level dur = .noise := by
  obtain ⟨rfl, rfl | rfl⟩ | ⟨rfl, rfl⟩ := h
  · decide
  · decide
  · decide

/-- Away from the upper end of a window the two readings agree on it. -/
theorem inWindow_of_ne_upperEnd {nominal : Nat} {dur : Ts} (h : dur.toNat ≠ nominal + 250) :
    inWindow { config with upperInclusive := true } nominal dur =
      inWindow { config with upperInclusive := false } nominal dur := by
  rw [Bool.eq_iff_iff, inWindow_config_iff, inWindow_config_iff, Bool.toNat_true, Bool.toNat_false]
  omega

/-- Away from the three upper ends the two readings answer the same symbol. -/
theorem classify_of_not_atUpperEnd {level : Level} {dur : Ts} (h : ¬AtUpperEnd level dur) :
    classify { config with upperInclusive := true } level dur =
      classify { config with upperInclusive := false } level dur := by
  cases level with
  | low =>
    have hshort : dur.toNat ≠ config.tShort + 250 := fun e => h (.inl ⟨rfl, .inl (BitVec.eq_of_toNat_eq e)⟩)
    have hlong : dur.toNat ≠ config.tLong + 250 := fun e => h (.inl ⟨rfl, .inr (BitVec.eq_of_toNat_eq e)⟩)
    simp only [classify, inWindow_of_ne_upperEnd hshort, inWindow_of_ne_upperEnd hlong]
  | high =>
    have hon : dur.toNat ≠ config.tOn + 250 := fun e => h (.inr ⟨rfl, BitVec.eq_of_toNat_eq e⟩)
    simp only [classify, inWindow_of_ne_upperEnd hon]

/-! ### The obligations -/

/-- Settles O17: the readings agree away from the upper ends, and at one only the half-open reading answers Noise. -/
theorem upperEndpointsAreTheOnlyDifference : Obligations.UpperEndpointsAreTheOnlyDifference := by
  refine fun level dur => ⟨⟨fun hne => ?_, fun hend => ?_⟩, fun hend => (classify_at_upperEnd hend).2⟩
  · by_contra hend
    exact hne (classify_of_not_atUpperEnd hend)
  · obtain ⟨hinclusive, hhalfOpen⟩ := classify_at_upperEnd hend
    rwa [hhalfOpen]

/-- Settles O18: whichever the reading, a window reaches at least to below its upper end and at most up to it. -/
theorem halfOpenWindowsHoldUnderBothReadings : Obligations.HalfOpenWindowsHoldUnderBothReadings := by
  intro upper dur
  have hupper : upper.toNat ≤ 1 := Bool.toNat_le upper
  rw [classify_low_eq, classify_high_eq]
  refine ⟨fun hlow hhigh => ?_, fun hlow hhigh => ?_, fun hlow hhigh => ?_, fun hshort hlong => ?_, fun hon => ?_⟩
  · rw [if_pos (by omega)]
  · rw [if_neg (by omega), if_pos (by omega)]
  · rw [if_pos (by omega)]
  · rw [if_neg (by omega), if_neg (by omega)]
  · rw [if_neg (by omega)]

/-- Settles O16: the model takes the inclusive reading, under which the windows are closed. -/
theorem classifyFollowsTheWindows : Obligations.ClassifyFollowsTheWindows := by
  intro level dur s
  have hexec : exec (.classify level dur) s =
      .next { s with result := .symbol (classify { config with upperInclusive := true } level dur) } := rfl
  rw [hexec]
  cases level with
  | low => simp only [classify_low_eq, Bool.toNat_true, Nat.lt_succ_iff]
  | high => simp only [classify_high_eq, Bool.toNat_true, Nat.lt_succ_iff]

end Sys2Proof.Machine
end

section
/-! SUPPORT. One EDGE path by path, the decode attempt outcome by outcome, and a run over a trace item by item; then the
statements of 41_edge_state_machine.md: each path with its whole next state, when a reading is emitted, repeated On symbols,
overflow, and a valid frame (R90 to R103). -/
namespace Sys2Proof.Machine

/-! ### The decode attempt, outcome by outcome -/

theorem tryDecode_of_no_match {c : Config} {m : Memory} (h : scan c m = none) : tryDecode c m = .error .noPreamble := by
  simp [tryDecode, h]

theorem tryDecode_of_no_frame {c : Config} {m : Memory} {i : Nat} (hscan : scan c m = some i)
    (h : assemble c m (i + c.frameOff) = none) : tryDecode c m = .error .frameLength := by
  simp [tryDecode, hscan, h]

theorem tryDecode_of_bad_checksum {c : Config} {m : Memory} {i : Nat} {f : Frame} (hscan : scan c m = some i)
    (hframe : assemble c m (i + c.frameOff) = some f) (h : verify c f = false) : tryDecode c m = .error .checksum := by
  simp [tryDecode, hscan, hframe, h]

theorem tryDecode_of_valid {c : Config} {m : Memory} {i : Nat} {f : Frame} (hscan : scan c m = some i)
    (hframe : assemble c m (i + c.frameOff) = some f) (h : verify c f = true) : tryDecode c m = .ok (decodeFrame f) := by
  simp [tryDecode, hscan, hframe, h]

/-- The attempt gives a reading exactly when 40 symbols with a good checksum stand from 4 after the lowest match (R100). -/
theorem tryDecode_ok_iff (m : Memory) (r : Reading) :
    tryDecode config m = .ok r ↔ ∃ i, scan config m = some i ∧ m.length = i + 44 ∧
      verify config (frameOf (m.drop (i + 4))) = true ∧ r = decodeFrame (frameOf (m.drop (i + 4))) := by
  constructor
  · intro h
    obtain ⟨i, f, hscan, hframe, hverify, rfl⟩ := tryDecode_ok config m r h
    obtain ⟨hlen, rfl⟩ := assemble_some config m _ f hframe
    exact ⟨i, hscan, hlen, hverify, rfl⟩
  · rintro ⟨i, hscan, hlen, hverify, rfl⟩
    exact tryDecode_of_valid hscan (if_pos hlen) hverify

/-! ### What an EDGE that classifies Noise answers -/

/-- The reading of the Noise path (R97). An empty buffer holds no match, so no attempt and an attempt on nothing give the same. -/
def noiseReading (m : Memory) : Option Reading := (tryDecode config m).toOption

/-- The label of the Noise path (R99). -/
def noiseLabel (m : Memory) : Label :=
  if m = [] then .noiseEmpty
  else
    match tryDecode config m with
    | .ok _ => .reading
    | .error cause => causeLabel cause

theorem noise_answer_of_empty : noiseLabel [] = .noiseEmpty ∧ noiseReading [] = none := ⟨rfl, rfl⟩

theorem noise_answer_of_error {m : Memory} {cause : RejectCause} (hm : m ≠ []) (h : tryDecode config m = .error cause) :
    noiseLabel m = causeLabel cause ∧ noiseReading m = none := by
  simp [noiseLabel, noiseReading, hm, h, Except.toOption]

theorem noise_answer_of_ok {m : Memory} {r : Reading} (hm : m ≠ []) (h : tryDecode config m = .ok r) :
    noiseLabel m = .reading ∧ noiseReading m = some r := by
  simp [noiseLabel, noiseReading, hm, h, Except.toOption]

theorem noiseReading_eq_some_iff (m : Memory) (r : Reading) : noiseReading m = some r ↔ tryDecode config m = .ok r := by
  rw [noiseReading]
  cases tryDecode config m <;> simp [Except.toOption]

theorem noisePath_eq (s : State) :
    noisePath config s = { s with prev := .noise, buf := [], result := .edge (noiseLabel s.buf) (noiseReading s.buf),
                                  out := s.out ++ (noiseReading s.buf).toList } := by
  obtain ⟨r, hm, htry, h⟩ | ⟨cause, hm, htry, h⟩ | ⟨hm, h⟩ := noisePath_cases config s
  · obtain ⟨hlabel, hreading⟩ := noise_answer_of_ok hm htry
    simp [h, hlabel, hreading]
  · obtain ⟨hlabel, hreading⟩ := noise_answer_of_error hm htry
    simp [h, hlabel, hreading]
  · obtain ⟨hlabel, hreading⟩ := noise_answer_of_empty
    simp [h, hm, hlabel, hreading]

/-! ### EDGE, path by path -/

/-- Noise (R92). -/
theorem edge_of_noise {level : Level} {ts : Ts} {s : State} (h : classify config level (ts - s.lastTs) = .noise) :
    edge config level ts s =
      { s with lastTs := ts, prev := .noise, buf := [], result := .edge (noiseLabel s.buf) (noiseReading s.buf),
               out := s.out ++ (noiseReading s.buf).toList } :=
  (edge_of_classify config level ts s .noise h).trans (noisePath_eq (s.setLastTs ts))

section
variable {c : Config} {level : Level} {ts : Ts} {s : State}

/-- On after On (R94). -/
theorem edge_on_after_on (h : classify c level (ts - s.lastTs) = .on) (hprev : s.prev = .on) :
    edge c level ts s = { s with lastTs := ts, result := .edge .onIgnored none } :=
  (edge_of_classify c level ts s .on h).trans (if_pos (decide_eq_true hprev))

/-- No On before (R98). -/
theorem edge_without_on (h : classify c level (ts - s.lastTs) ≠ .noise) (hprev : s.prev ≠ .on) :
    edge c level ts s =
      { s with lastTs := ts, prev := classify c level (ts - s.lastTs), result := .edge .prevOnly none } := by
  have hgate : ¬gateOpen (s.setLastTs ts).prev = true := fun hopen => hprev (of_decide_eq_true hopen)
  cases hsym : classify c level (ts - s.lastTs) with
  | noise => exact absurd hsym h
  | on | shortOff | longOff => exact (edge_of_classify c level ts s _ hsym).trans (if_neg hgate)

/-- A data symbol after On, as its bit (R95, R96). -/
theorem edge_data_after_on {b : Bit} (h : (classify c level (ts - s.lastTs)).bit? = some b) (hprev : s.prev = .on) :
    edge c level ts s = dataPath c (classify c level (ts - s.lastTs)) b (s.setLastTs ts) := by
  have hgate : gateOpen (s.setLastTs ts).prev = true := decide_eq_true hprev
  cases hsym : classify c level (ts - s.lastTs) with
  | noise | on => simp [hsym, Symbol.bit?] at h
  | shortOff | longOff =>
    rw [hsym] at h
    obtain rfl := Option.some.inj h
    exact (edge_of_classify c level ts s _ hsym).trans (if_pos hgate)

/-- Overflow (R95). -/
theorem edge_overflow {b : Bit} (h : (classify c level (ts - s.lastTs)).bit? = some b) (hprev : s.prev = .on)
    (hlen : s.buf.length = c.bufCap) :
    edge c level ts s = { s with lastTs := ts, buf := [], result := .edge .overflow none } :=
  (edge_data_after_on h hprev).trans (if_pos hlen)

/-- Append (R96). -/
theorem edge_append {b : Bit} (h : (classify c level (ts - s.lastTs)).bit? = some b) (hprev : s.prev = .on)
    (hlen : s.buf.length ≠ c.bufCap) :
    edge c level ts s = { s with lastTs := ts, prev := classify c level (ts - s.lastTs), buf := bufAppend s.buf b,
                                 result := .edge .append none } :=
  (edge_data_after_on h hprev).trans (if_neg hlen)

/-- After On `prev` is On and the buffer is as before, whatever `prev` was (R94, R98). -/
theorem edge_of_on (h : classify c level (ts - s.lastTs) = .on) :
    ∃ result, edge c level ts s = { s with lastTs := ts, prev := .on, result := result } := by
  by_cases hprev : s.prev = .on
  · exact ⟨_, by rw [edge_on_after_on h hprev, hprev]⟩
  · exact ⟨_, by rw [edge_without_on (by simp [h]) hprev, h]⟩

/-- Only the Noise path emits (R100). -/
theorem edge_out_of_not_noise (h : classify c level (ts - s.lastTs) ≠ .noise) : (edge c level ts s).out = s.out := by
  rw [edge_of_classify c level ts s _ rfl]
  obtain ⟨hnoise, -⟩ | ⟨-, -, he⟩ | ⟨-, -, he⟩ | ⟨_, -, -, ⟨-, he⟩ | ⟨-, he⟩⟩ :=
    edgeSymbol_cases c (classify c level (ts - s.lastTs)) (s.setLastTs ts)
  · exact absurd hnoise h
  all_goals
    rw [he]
    rfl

end

/-! ### Traces, one item at a time -/

/-- One item of a trace: an event of the item's level, the item's duration after the one before (R74). -/
def playItem (c : Config) (s : State) (x : TraceItem) : State := edge c (itemLevel x) (s.lastTs + itemDur x) s

/-- A run over a trace that starts at the time of the last event plays its items in turn. -/
theorem runEvents_traceEvents (c : Config) (s : State) (items : List TraceItem) :
    runEvents c s (traceEvents s.lastTs items) = items.foldl (playItem c) s := by
  induction items generalizing s with
  | nil => rfl
  | cons x rest ih =>
    have htime : (playItem c s x).lastTs = s.lastTs + itemDur x := (edge_lastTs_pending ..).1
    rw [traceEvents, runEvents_cons, consume_eventWord, List.foldl_cons, ← ih (playItem c s x), htime]
    rfl

/-- CORE classifies an item of a trace by the item's own duration. -/
theorem classify_item (c : Config) (s : State) (x : TraceItem) :
    classify c (itemLevel x) (s.lastTs + itemDur x - s.lastTs) = classify c (itemLevel x) (itemDur x) := by
  rw [elapsed]

/-! ### Pulse trains -/

/-- An On interval and an Off interval in turn. -/
def playPulse (c : Config) (s : State) (p : Ts × Ts) : State := playItem c (playItem c s (.h p.1)) (.l p.2)

theorem play_pulseItems (c : Config) (s : State) (pulses : List (Ts × Ts)) :
    (pulseItems pulses).foldl (playItem c) s = pulses.foldl (playPulse c) s :=
  List.foldl_flatMap

/-- A pulse carries a bit: an On, then the data symbol of the bit (R44, R80). -/
def carriesBit (c : Config) (b : Bit) (p : Ts × Ts) : Prop :=
  classify c .high p.1 = .on ∧ (classify c .low p.2).bit? = some b

theorem carries_nil_iff (c : Config) (pulses : List (Ts × Ts)) : carries c [] pulses ↔ pulses = [] := by
  simp [carries]

theorem carries_cons_iff (c : Config) (b : Bit) (bits : List Bit) (pulses : List (Ts × Ts)) :
    carries c (b :: bits) pulses ↔ ∃ p rest, pulses = p :: rest ∧ carriesBit c b p ∧ carries c bits rest := by
  cases pulses with
  | nil => simp [carries]
  | cons p rest => simp [carries, carriesBit]

/-- A pulse brings `prev` to On, then its data symbol finds the gate open (R93). -/
theorem playPulse_gate (c : Config) (s : State) (p : Ts × Ts) {b : Bit} (h : carriesBit c b p) :
    ∃ t : State, t.prev = .on ∧ t.buf = s.buf ∧ t.out = s.out ∧
      (classify c .low (t.lastTs + p.2 - t.lastTs)).bit? = some b ∧ playPulse c s p = edge c .low (t.lastTs + p.2) t := by
  obtain ⟨hon, hbit⟩ := h
  obtain ⟨result, hplay⟩ : ∃ result, playItem c s (.h p.1) =
      { s with lastTs := s.lastTs + p.1, prev := .on, result := result } :=
    edge_of_on ((classify_item c s (.h p.1)).trans hon)
  exact ⟨playItem c s (.h p.1), by rw [hplay], by rw [hplay], by rw [hplay], by rwa [elapsed], rfl⟩

/-- Below capacity a pulse appends its bit (R96). -/
theorem playPulse_append (c : Config) (s : State) (p : Ts × Ts) {b : Bit} (h : carriesBit c b p)
    (hlen : s.buf.length ≠ c.bufCap) : (playPulse c s p).buf = s.buf ++ [b] := by
  obtain ⟨t, hprev, hbuf, -, hbit, hplay⟩ := playPulse_gate c s p h
  rw [hplay, edge_append hbit hprev (by rwa [hbuf]), ← hbuf]
  rfl

/-- At capacity a pulse empties the buffer and leaves `prev` at On (R95). -/
theorem playPulse_overflow (c : Config) (s : State) (p : Ts × Ts) {b : Bit} (h : carriesBit c b p)
    (hlen : s.buf.length = c.bufCap) : (playPulse c s p).buf = [] ∧ (playPulse c s p).prev = .on := by
  obtain ⟨t, hprev, hbuf, -, hbit, hplay⟩ := playPulse_gate c s p h
  rw [hplay, edge_overflow hbit hprev (by rwa [hbuf])]
  exact ⟨rfl, hprev⟩

/-- A pulse that carries a bit emits nothing: neither of its symbols is Noise (R100). -/
theorem playPulse_out (c : Config) (s : State) (p : Ts × Ts) {b : Bit} (h : carriesBit c b p) :
    (playPulse c s p).out = s.out := by
  obtain ⟨t, -, -, hout, hbit, hplay⟩ := playPulse_gate c s p h
  have hdata : classify c .low (t.lastTs + p.2 - t.lastTs) ≠ .noise := fun hnoise => by
    rw [hnoise] at hbit
    nomatch hbit
  rw [hplay, edge_out_of_not_noise hdata, hout]

/-- A pulse train emits nothing, however long it is. -/
theorem playPulses_out (c : Config) (bits : List Bit) (pulses : List (Ts × Ts)) (s : State) (h : carries c bits pulses) :
    (pulses.foldl (playPulse c) s).out = s.out := by
  induction bits generalizing pulses s with
  | nil => rw [(carries_nil_iff c pulses).mp h, List.foldl_nil]
  | cons b bits ih =>
    obtain ⟨p, rest, rfl, hp, hrest⟩ := (carries_cons_iff c b bits pulses).mp h
    rw [List.foldl_cons, ih rest _ hrest, playPulse_out c s p hp]

/-- A pulse train that fits stands in the buffer bit for bit; one data symbol more empties it (R95, R96). -/
theorem playPulses_buf (c : Config) (bits : List Bit) (pulses : List (Ts × Ts)) (s : State) (h : carries c bits pulses) :
    (s.buf.length + bits.length ≤ c.bufCap → (pulses.foldl (playPulse c) s).buf = s.buf ++ bits) ∧
    (s.buf.length ≤ c.bufCap → s.buf.length + bits.length = c.bufCap + 1 →
      (pulses.foldl (playPulse c) s).buf = [] ∧ (pulses.foldl (playPulse c) s).prev = .on) := by
  induction bits generalizing pulses s with
  | nil =>
    rw [(carries_nil_iff c pulses).mp h]
    refine ⟨fun _ => (List.append_nil _).symm, fun hle hlen => ?_⟩
    rw [List.length_nil] at hlen
    omega
  | cons b bits ih =>
    obtain ⟨p, rest, rfl, hp, hrest⟩ := (carries_cons_iff c b bits pulses).mp h
    rw [List.foldl_cons, List.length_cons]
    obtain ⟨ihFits, ihOverflows⟩ := ih rest (playPulse c s p) hrest
    by_cases hfull : s.buf.length = c.bufCap
    · refine ⟨fun hlen => by omega, fun _ hlen => ?_⟩
      obtain rfl : bits = [] := List.length_eq_zero_iff.mp (by omega)
      rw [(carries_nil_iff c rest).mp hrest]
      exact playPulse_overflow c s p hp hfull
    · have hbuf := playPulse_append c s p hp hfull
      rw [hbuf, List.length_append, List.length_singleton] at ihFits ihOverflows
      refine ⟨fun hlen => ?_, fun hle hlen => ihOverflows (by omega) (by omega)⟩
      rw [ihFits (by omega), List.append_assoc, List.singleton_append]

/-! ### A transmitted frame in the buffer -/

/-- Where the preamble stands first, SCAN hits at 0 (R110). -/
theorem scan_of_preamble_first (rest : List Bit) :
    scan config ([true, true, true, true, false, true, false, false] ++ rest) = some 0 := by
  have hmatch : matchAt config ([true, true, true, true, false, true, false, false] ++ rest) 0 = true := by
    rw [matchAt_iff]
    intro k hk
    rw [Nat.zero_add]
    exact List.getElem?_append_left hk
  cases hscan : scan config ([true, true, true, true, false, true, false, false] ++ rest) with
  | none =>
    have hmiss := scan_none config _ hscan 0 (by simp)
    nomatch hmatch.symm.trans hmiss
  | some i =>
    obtain ⟨-, -, hlowest⟩ := scan_some config _ i hscan
    by_contra hne
    have hmiss := hlowest 0 (Nat.pos_of_ne_zero fun hi => hne (congrArg some hi))
    nomatch hmatch.symm.trans hmiss

/-- The fold of R120 cannot carry: the bit goes in at the low end. -/
theorem foldBit_eq_or (v : Byte) (b : Bit) : foldBit v b = (v <<< 1) ||| Bit.toVec 8 b := by
  apply BitVec.add_eq_or_of_and_eq_zero
  apply BitVec.eq_of_getLsbD_eq
  intro i hi
  cases b
  · simp [Bit.toVec]
  · cases i <;> simp [Bit.toVec]

/-- The bits of a byte, bit 7 first, fold back to the byte (R45, R120). -/
theorem foldBit_byteBits (v : Byte) : (byteBits v).foldl foldBit 0 = v := by
  have hfold : foldBit = fun (v : Byte) b => (v <<< 1) ||| Bit.toVec 8 b := funext₂ foldBit_eq_or
  have hlen : (byteBits v).length = 8 := rfl
  apply BitVec.eq_of_getLsbD_eq
  intro i hi
  have hbit : (byteBits v).getD (8 - 1 - i) false = v.getMsbD (8 - 1 - i) := by
    simp [byteBits, show 7 - i < 8 by omega]
  rw [hfold, shiftFold_getLsbD _ _ _ hi, hlen, if_pos hi, hbit, BitVec.getLsbD_eq_getMsbD, decide_eq_true hi, Bool.true_and]

/-- The 40 bits of a frame in arrival order are assembled to the frame (R46, R123). -/
theorem frameOf_frameBitList (f : Frame) : frameOf (frameBitList f) = f := by
  have hbits := frameBitList_eq f
  apply Frame.eq_of_bytes <;> rw [frameOf_getElem _ _ (by decide), hbits] <;> exact foldBit_byteBits _

theorem frameBitList_length (f : Frame) : (frameBitList f).length = 40 := by
  rw [frameBitList_eq]
  rfl

/-- A byte whose high nibble is the preamble remainder starts with its four bits (R66). -/
theorem byteBits_of_remainder {v : Byte} (h : slice v 4 4 = 0b0100) :
    ∃ low, byteBits v = [false, true, false, false] ++ low := by
  have hbit : ∀ j, j < 4 → v.getLsbD (4 + j) = (0b0100 : BitVec 4).getLsbD j := by
    intro j hj
    rw [← h]
    simp [slice, hj]
  refine ⟨[v.getLsbD 3, v.getLsbD 2, v.getLsbD 1, v.getLsbD 0], ?_⟩
  calc byteBits v = [v.getLsbD (4 + 3), v.getLsbD (4 + 2), v.getLsbD (4 + 1), v.getLsbD (4 + 0)] ++
        [v.getLsbD 3, v.getLsbD 2, v.getLsbD 1, v.getLsbD 0] := rfl
    _ = _ := by rw [hbit 3 (by decide), hbit 2 (by decide), hbit 1 (by decide), hbit 0 (by decide)]; rfl

/-- The first half of the preamble and a valid frame that begins with the second half decode to the frame's reading (R66, R97). -/
theorem tryDecode_of_transmission {f : Frame} (hnibble : slice f[0] 4 4 = 0b0100) (hverify : verify config f = true) :
    tryDecode config ([true, true, true, true] ++ frameBitList f) = .ok (decodeFrame f) := by
  have hscan : scan config ([true, true, true, true] ++ frameBitList f) = some 0 := by
    obtain ⟨low, hlow⟩ := byteBits_of_remainder hnibble
    rw [frameBitList_eq, hlow]
    simp only [List.append_assoc]
    exact scan_of_preamble_first _
  have hdrop : ([true, true, true, true] ++ frameBitList f).drop (0 + 4) = frameBitList f := rfl
  rw [tryDecode_ok_iff]
  refine ⟨0, hscan, ?_, ?_, ?_⟩
  · rw [List.length_append, frameBitList_length]
    rfl
  · rwa [hdrop, frameOf_frameBitList]
  · rw [hdrop, frameOf_frameBitList]

/-! ### The obligations -/

/-- Settles O22: the preamble is 8 symbols long, and a frame stands on exactly 40 more from its fifth on. -/
theorem scanHitBounds : Obligations.ScanHitBounds := by
  intro m i hwf hscan
  have hfits : i + 8 ≤ m.length := (scan_some config m i hscan).1
  have hcap : m.length ≤ 128 := hwf
  refine ⟨hfits, by omega, fun f hframe => ?_⟩
  have hlen : m.length = i + 4 + 40 := (assemble_some config m _ f hframe).1
  omega

/-- Settles O37: the answer of the Noise path is the outcome of the attempt. -/
theorem edgeOnNoiseAttemptsAndClears : Obligations.EdgeOnNoiseAttemptsAndClears := by
  intro level ts s h
  refine ⟨noiseLabel s.buf, noiseReading s.buf, by rw [exec_edge, edge_of_noise h], ?_, ?_, ?_⟩
  · intro hlen
    rw [List.length_eq_zero_iff.mp hlen]
    exact noise_answer_of_empty
  · intro hlen hscan
    exact noise_answer_of_error (List.ne_nil_of_length_pos hlen) (tryDecode_of_no_match hscan)
  · intro i hlen hscan
    have hne : s.buf ≠ [] := List.ne_nil_of_length_pos hlen
    refine ⟨fun hframe => ?_, fun f hframe => ⟨fun hverify => ?_, fun hverify => ?_⟩⟩
    · exact noise_answer_of_error hne (tryDecode_of_no_frame hscan hframe)
    · exact noise_answer_of_error hne (tryDecode_of_bad_checksum hscan hframe hverify)
    · exact noise_answer_of_ok hne (tryDecode_of_valid hscan hframe hverify)

/-- Settles O40: the new buffer is BufAppend's. -/
theorem edgeAppendsOneSymbol : Obligations.EdgeAppendsOneSymbol := by
  intro level ts s sym b hsym h hprev hlen
  have hbit : (classify config level (ts - s.lastTs)).bit? = some b := by
    obtain ⟨rfl, rfl⟩ | ⟨rfl, rfl⟩ := hsym <;> rw [h] <;> rfl
  refine ⟨bufAppend s.buf b, ?_, bufAppend_length s.buf b, bufRead_append_new s.buf b, bufRead_append_other s.buf b⟩
  rw [exec_edge, edge_append hbit hprev (Nat.ne_of_lt hlen), h]

/-- Settles O42: only the Noise path emits, and it emits the reading of its attempt. -/
theorem edgeEmitsExactlyForValidFrames : Obligations.EdgeEmitsExactlyForValidFrames := by
  intro level ts s
  refine ⟨edge config level ts s, exec_edge level ts s, ?_⟩
  by_cases h : classify config level (ts - s.lastTs) = .noise
  · rw [edge_of_noise h]
    cases hreading : noiseReading s.buf with
    | none =>
      refine ⟨.inl (List.append_nil _), by simp, ?_⟩
      rintro ⟨-, i, hscan, hlen, hverify⟩
      have hok := (tryDecode_ok_iff s.buf _).mpr ⟨i, hscan, hlen, hverify, rfl⟩
      nomatch hreading.symm.trans ((noiseReading_eq_some_iff s.buf _).mpr hok)
    | some r =>
      obtain ⟨i, hscan, hlen, hverify, -⟩ := (tryDecode_ok_iff s.buf r).mp ((noiseReading_eq_some_iff s.buf r).mp hreading)
      exact ⟨.inr ⟨r, rfl⟩, fun _ => ⟨h, i, hscan, hlen, hverify⟩, by simp⟩
  · rw [edge_out_of_not_noise h]
    exact ⟨.inl rfl, fun hne => absurd rfl hne, fun hnoise => absurd hnoise.1 h⟩

/-- Settles O57, by induction on the durations: each On finds `prev` at On. -/
theorem repeatedOnsCountAsOne : Obligations.RepeatedOnsCountAsOne := by
  intro durs s hprev hon
  rw [runEvents_traceEvents]
  induction durs generalizing s with
  | nil => exact ⟨s.result, rfl⟩
  | cons d durs ih =>
    obtain ⟨hd, hdurs⟩ := List.forall_mem_cons.mp hon
    have hplay : playItem config s (.h d) = { s with lastTs := s.lastTs + d, result := .edge .onIgnored none } :=
      edge_on_after_on ((classify_item config s (.h d)).trans hd) hprev
    rw [List.map_cons, List.foldl_cons, hplay]
    exact ih _ hprev hdurs

/-- Settles O58: the buffer starts empty, so the capacity is the number of bits it takes. -/
theorem overflowAtThe129thSymbol : Obligations.OverflowAtThe129thSymbol := by
  intro bits pulses s _ hbuf hcarries
  rw [runEvents_traceEvents, play_pulseItems]
  obtain ⟨hfits, hoverflows⟩ := playPulses_buf config bits pulses s hcarries
  rw [hbuf, List.length_nil, Nat.zero_add] at hfits hoverflows
  exact ⟨playPulses_out config bits pulses s hcarries, hfits, hoverflows (by decide)⟩

/-- Settles O59: the pulses fill the buffer with the preamble's first half and the frame, and the closing Noise decodes it. -/
theorem validFrameIsDecodedOnce : Obligations.ValidFrameIsDecodedOnce := by
  intro f pulses closing s _ hbuf hnibble hverify hcarries hclosing
  have hlast : (runEvents config s (traceEvents s.lastTs (pulseItems pulses ++ [closing]))).out =
      s.out ++ [decodeFrame f] := by
    rw [runEvents_traceEvents, List.foldl_append, play_pulseItems, List.foldl_cons, List.foldl_nil]
    have hout := playPulses_out config _ pulses s hcarries
    have hfilled := (playPulses_buf config _ pulses s hcarries).1
      (by rw [hbuf, List.length_append, frameBitList_length]; decide)
    rw [hbuf, List.nil_append] at hfilled
    have hreading := (noiseReading_eq_some_iff _ _).mpr (tryDecode_of_transmission hnibble hverify)
    rw [playItem, edge_of_noise ((classify_item config _ closing).trans hclosing), hfilled, hreading, hout]
    rfl
  refine ⟨hlast, ?_⟩
  rw [readings, hlast, List.drop_left]

/-- Settles O38 by the path of On after On. -/
theorem edgeOnAfterOnIsIgnored : Obligations.EdgeOnAfterOnIsIgnored := by
  intro level ts s h hprev
  rw [exec_edge, edge_on_after_on h hprev]

/-- Settles O39: both data symbols take the same path. -/
theorem edgeOverflowDropsTheSymbol : Obligations.EdgeOverflowDropsTheSymbol := by
  intro level ts s h hprev hlen
  obtain ⟨b, hbit⟩ : ∃ b, (classify config level (ts - s.lastTs)).bit? = some b := by
    obtain h | h := h <;> exact ⟨_, congrArg Symbol.bit? h⟩
  rw [exec_edge, edge_overflow hbit hprev hlen]

/-- Settles O41: On and the two data symbols take one path where no On came before. -/
theorem edgeWithoutOnOnlySetsPrev : Obligations.EdgeWithoutOnOnlySetsPrev := by
  intro level ts s h hprev
  rw [exec_edge, edge_without_on h hprev]

end Sys2Proof.Machine
end

section
/-! SUPPORT. SCAN as one equivalence, and its shift register as a window on the latest bits; then the statements of
42_preamble_scanner.md: the closed form, the second building, and matches that cannot overlap (R110, R111, R114). -/
namespace Sys2Proof.Machine

/-! ### The closed form -/

/-- The two directions of R110: SCAN's hit is the lowest match, and the lowest match is SCAN's hit. -/
theorem scan_eq_some_iff (c : Config) (m : Memory) (i : Nat) :
    scan c m = some i ↔ i + c.preLen ≤ m.length ∧ matchAt c m i = true ∧ ∀ j, j < i → matchAt c m j = false := by
  refine ⟨scan_some c m i, fun ⟨hfits, hmatch, hlowest⟩ => ?_⟩
  cases hscan : scan c m with
  | none => nomatch hmatch.symm.trans (scan_none c m hscan i hfits)
  | some j =>
    obtain ⟨-, hmatch', hlowest'⟩ := scan_some c m j hscan
    rcases Nat.lt_trichotomy i j with hlt | rfl | hgt
    · nomatch hmatch.symm.trans (hlowest' i hlt)
    · rfl
    · nomatch hmatch'.symm.trans (hlowest j hgt)

/-- A match is about the `PRE_LEN` entries from its index on, so what arrives later does not touch it (R110). -/
theorem matchAt_append (c : Config) (m rest : Memory) {i : Nat} (h : i + c.preLen ≤ m.length) :
    matchAt c (m ++ rest) i = matchAt c m i := by
  rw [Bool.eq_iff_iff, matchAt_iff, matchAt_iff]
  refine forall₂_congr fun k hk => ?_
  rw [bufRead, List.getElem?_append_left (by omega), ← bufRead]

/-! ### The shift register -/

theorem shiftIn_append_singleton (n : Nat) (bits : List Bit) (b : Bit) :
    shiftIn n (bits ++ [b]) = (shiftIn n bits <<< 1) ||| Bit.toVec n b :=
  List.foldl_concat ..

/-- Once `n` bits have gone in, the register's bits from the top down are the latest `n` (R114). -/
theorem getElem?_eq_shiftIn_getMsbD {n k : Nat} {bits : List Bit} (hlen : n ≤ bits.length) (hk : k < n) :
    bits[bits.length - n + k]? = some ((shiftIn n bits).getMsbD k) := by
  have hindex : bits.length - 1 - (n - 1 - k) = bits.length - n + k := by omega
  have hlt : bits.length - n + k < bits.length := by omega
  rw [BitVec.getMsbD, shiftIn, shiftFold_getLsbD _ _ _ (by omega), if_pos (by omega), hindex, decide_eq_true hk,
    Bool.true_and, List.getD_eq_getElem _ _ hlt, List.getElem?_eq_getElem hlt]

/-- Two registers are equal when the latest `n` bits are. -/
theorem shiftIn_eq_iff {n : Nat} {bits word : List Bit} (hbits : n ≤ bits.length) (hword : word.length = n) :
    shiftIn n bits = shiftIn n word ↔ ∀ k, k < n → bits[bits.length - n + k]? = word[k]? := by
  have hbit : ∀ k, k < n → word[k]? = some ((shiftIn n word).getMsbD k) := fun k hk => by
    rw [← getElem?_eq_shiftIn_getMsbD hword.ge hk, hword, Nat.sub_self, Nat.zero_add]
  constructor
  · intro heq k hk
    rw [getElem?_eq_shiftIn_getMsbD hbits hk, hbit k hk, heq]
  · intro hread
    refine BitVec.eq_of_getMsbD_eq fun k hk => Option.some.inj ?_
    rw [← getElem?_eq_shiftIn_getMsbD hbits hk, ← hbit k hk, hread k hk]

/-- The register equals 0xF4 exactly when the preamble stands in the latest 8 entries (R114). -/
theorem shiftIn_eq_preamble_iff {m : Memory} (h : 8 ≤ m.length) :
    shiftIn 8 m = shiftIn 8 (preambleBits config) ↔ matchAt config m (m.length - 8) = true := by
  rw [shiftIn_eq_iff h rfl, matchAt_iff]
  rfl

/-- After a part of the buffer that holds no match, the register finds what SCAN finds in the whole buffer (R114). -/
theorem scanShiftFrom_eq_scan (m rest : Memory) (h : ∀ i, i + 8 ≤ m.length → matchAt config m i = false) :
    scanShiftFrom config rest m.length (shiftIn 8 m) = scan config (m ++ rest) := by
  induction rest generalizing m with
  | nil =>
    rw [List.append_nil, scanShiftFrom]
    cases hscan : scan config m with
    | none => rfl
    | some i =>
      obtain ⟨hfits, hmatch, -⟩ := scan_some config m i hscan
      nomatch hmatch.symm.trans (h i hfits)
  | cons b rest ih =>
    have hlen : (m ++ [b]).length = m.length + 1 := List.length_append
    have hsplit : m ++ b :: rest = (m ++ [b]) ++ rest := List.append_cons ..
    have hold : ∀ i, i + 8 ≤ m.length → matchAt config (m ++ [b]) i = false :=
      fun i hi => (matchAt_append config m [b] hi).trans (h i hi)
    rw [scanShiftFrom, ← shiftIn_append_singleton, config_preLen, hsplit, ← hlen]
    split
    next hhit =>
      obtain ⟨hfull, hreg⟩ := hhit
      have hmatch := (shiftIn_eq_preamble_iff hfull).mp hreg
      have hroom : (m ++ [b]).length - 8 + config.preLen = (m ++ [b]).length := Nat.sub_add_cancel hfull
      refine ((scan_eq_some_iff ..).mpr ⟨?_, ?_, fun j hj => ?_⟩).symm
      · exact hroom.trans_le (List.prefix_append ..).length_le
      · rwa [matchAt_append _ _ _ hroom.le]
      · rw [matchAt_append _ _ _ (by omega)]
        exact hold j (by omega)
    next hmiss =>
      refine ih (m ++ [b]) fun i hi => ?_
      rcases Nat.lt_or_ge m.length (i + 8) with hnew | hearlier
      · obtain rfl : i = (m ++ [b]).length - 8 := by omega
        rw [← Bool.not_eq_true, ← shiftIn_eq_preamble_iff (by omega)]
        exact fun hreg => hmiss ⟨by omega, hreg⟩
      · exact hold i hearlier

/-! ### Matches do not overlap -/

/-- No proper shift of the preamble agrees with it where the two overlap (R111). -/
theorem preambleBits_ne_shifted : ∀ d, d < 8 → 0 < d →
    ∃ k, k < 8 - d ∧ (preambleBits config)[k + d]? ≠ (preambleBits config)[k]? := by
  decide

/-! ### The obligations -/

/-- Settles O19: SCAN answers without touching the state, and each match is written out bit by bit. -/
theorem scanFindsTheLowestMatch : Obligations.ScanFindsTheLowestMatch := by
  intro buf s
  refine ⟨rfl, fun i => ?_⟩
  have hmatch : ∀ j, matchAt config buf j = true ↔
      ∀ k, k < 8 → bufRead buf (j + k) = [true, true, true, true, false, true, false, false][k]? := matchAt_iff config buf
  have hroom : i + config.preLen ≤ buf.length ↔ 8 ≤ buf.length ∧ i ≤ buf.length - 8 := by
    rw [config_preLen]
    omega
  simp only [scan_eq_some_iff, hroom, and_assoc, ← hmatch, Bool.not_eq_true]

/-- Settles O20: before the first bit nothing has been missed. -/
theorem shiftRegisterScannerAgrees : Obligations.ShiftRegisterScannerAgrees :=
  fun m => scanShiftFrom_eq_scan [] m fun i hi => absurd hi (by simp)

/-- Settles O21: two matches closer than 8 would read one entry as two different bits. -/
theorem preambleMatchesAreEightApart : Obligations.PreambleMatchesAreEightApart := by
  intro m i j hi hj hlt
  by_contra hclose
  obtain ⟨k, hk, hne⟩ := preambleBits_ne_shifted (j - i) (by omega) (by omega)
  apply hne
  calc (preambleBits config)[k + (j - i)]?
      = bufRead m (i + (k + (j - i))) := ((matchAt_iff config m i).mp hi _ (by rw [config_preLen]; omega)).symm
    _ = bufRead m (j + k) := congrArg (bufRead m) (by omega)
    _ = (preambleBits config)[k]? := (matchAt_iff config m j).mp hj k (by rw [config_preLen]; omega)

end Sys2Proof.Machine
end

section
/-! SUPPORT. ASSEMBLE as one equivalence with the bits that stand in the buffer, and its shift register as a register that
forgets what it held; then the statements of 43_frame_assembler.md (R120 to R123). -/
namespace Sys2Proof.Machine

/-! ### Registers that have been filled -/

/-- Once `n` bits have gone in, nothing is left of what an `n`-bit register held before (R122: "cleared or not"). -/
theorem shiftFold_eq_shiftIn {n : Nat} {bits : List Bit} (v : BitVec n) (h : n ≤ bits.length) :
    bits.foldl (fun (v : BitVec n) b => (v <<< 1) ||| Bit.toVec n b) v = shiftIn n bits := by
  refine BitVec.eq_of_getLsbD_eq fun i hi => ?_
  have hnew : i < bits.length := Nat.lt_of_lt_of_le hi h
  rw [shiftIn, shiftFold_getLsbD _ _ _ hi, shiftFold_getLsbD _ _ _ hi, if_pos hnew, if_pos hnew]

/-- A byte of the frame is an 8-bit register after its 8 symbols (R45, R120). -/
theorem byteOf_eq_shiftIn (bits : List Bit) (k : Nat) : byteOf bits k = shiftIn 8 ((bits.drop (8 * k)).take 8) := by
  rw [byteOf, funext₂ foldBit_eq_or, shiftIn]

/-- The earliest of the 8 symbols of a byte is its bit 7, the latest its bit 0 (R45, R120). -/
theorem getElem?_eq_byteOf_getLsbD {bits : List Bit} {k j : Nat} (hlen : 8 * k + 8 ≤ bits.length) (hj : j < 8) :
    bits[8 * k + j]? = some ((byteOf bits k).getLsbD (7 - j)) := by
  have hfull : ((bits.drop (8 * k)).take 8).length = 8 := by simp; omega
  have hbit := getElem?_eq_shiftIn_getMsbD hfull.ge hj
  rw [hfull, Nat.sub_self, Nat.zero_add, List.getElem?_take_of_lt hj, List.getElem?_drop] at hbit
  rw [hbit, byteOf_eq_shiftIn, BitVec.getMsbD, decide_eq_true hj, Bool.true_and]

/-- `byte[k] = F[39 - 8k : 32 - 8k]` (R122). -/
theorem frameByte_ofWord (w : BitVec 40) {k : Nat} (hk : k < 5) :
    frameByte (Frame.ofWord w) k = slice w (32 - 8 * k) 8 := by
  match k, hk with
  | 0, _ | 1, _ | 2, _ | 3, _ | 4, _ => rfl

/-- Bit `7 - j` of byte `k` is the bit of the 40-bit value that went in at step `8k + j` (R46, R122). -/
theorem frameByte_ofWord_getLsbD (w : BitVec 40) {k j : Nat} (hk : k < 5) (hj : j < 8) :
    (frameByte (Frame.ofWord w) k).getLsbD (7 - j) = w.getMsbD (8 * k + j) := by
  have hbyte : 7 - j < 8 := by omega
  have hword : 8 * k + j < 40 := by omega
  have hindex : 32 - 8 * k + (7 - j) = 40 - 1 - (8 * k + j) := by omega
  rw [frameByte_ofWord w hk, slice, BitVec.getLsbD_extractLsb', BitVec.getMsbD, hindex, decide_eq_true hbyte,
    decide_eq_true hword]

/-! ### The frame that the buffer spells -/

/-- The symbols from `start` on are the bits of `f`, byte after byte, bit 7 first (R45, R46, R123). -/
def FrameStandsAt (m : Memory) (start : Nat) (f : Frame) : Prop :=
  ∀ k j, k < 5 → j < 8 → bufRead m (start + 8 * k + j) = some ((frameByte f k).getLsbD (7 - j))

/-- A buffer spells at most one frame from an index on. -/
theorem FrameStandsAt.unique {m : Memory} {start : Nat} {f g : Frame} (hf : FrameStandsAt m start f)
    (hg : FrameStandsAt m start g) : f = g := by
  have hbyte : ∀ k (hk : k < 5), f[k] = g[k] := by
    intro k hk
    rw [← frameByte_eq f k hk, ← frameByte_eq g k hk]
    refine BitVec.eq_of_getLsbD_eq fun i hi => ?_
    have hread := (hf k (7 - i) hk (by omega)).symm.trans (hg k (7 - i) hk (by omega))
    rwa [Nat.sub_sub_self (Nat.le_of_lt_succ hi), Option.some.injEq] at hread
  exact Vector.ext hbyte

/-- The frame that ASSEMBLE folds is the one the buffer spells (R120). -/
theorem frameOf_standsAt {m : Memory} {start : Nat} (hlen : m.length = start + 40) :
    FrameStandsAt m start (frameOf (m.drop start)) := by
  intro k j hk hj
  rw [frameByte_eq _ k hk, frameOf_getElem _ k hk, ← getElem?_eq_byteOf_getLsbD (by simp; omega) hj, bufRead,
    List.getElem?_drop, Nat.add_assoc]

/-- The frame in the shift register is the one the buffer spells, whatever the register held (R122). -/
theorem assembleShift_standsAt (v : BitVec 40) {m : Memory} {start : Nat} (hlen : m.length = start + 40) :
    FrameStandsAt m start (Frame.ofWord (assembleShift v m start)) := by
  intro k j hk hj
  have hfull : (m.drop start).length = 40 := by simp [hlen]
  have hregister : assembleShift v m start = shiftIn 40 (m.drop start) := shiftFold_eq_shiftIn v hfull.ge
  have hbit := getElem?_eq_shiftIn_getMsbD hfull.ge (show 8 * k + j < 40 by omega)
  rw [hfull, Nat.sub_self, Nat.zero_add, List.getElem?_drop] at hbit
  rw [frameByte_ofWord_getLsbD _ hk hj, hregister, ← hbit, bufRead, Nat.add_assoc]

/-- ASSEMBLE gives the frame that exactly 40 symbols spell, and no other (R120, R121, R123). -/
theorem assemble_eq_some_iff (m : Memory) (start : Nat) (f : Frame) :
    assemble config m start = some f ↔ m.length = start + 40 ∧ FrameStandsAt m start f := by
  constructor
  · intro hframe
    obtain ⟨hlen, rfl⟩ := assemble_some config m start f hframe
    exact ⟨hlen, frameOf_standsAt hlen⟩
  · rintro ⟨hlen, hstands⟩
    rw [hstands.unique (frameOf_standsAt hlen)]
    exact if_pos hlen

/-! ### The obligations -/

/-- Settles O23: ASSEMBLE answers without touching the state, and its frame is the one the buffer spells. -/
theorem assembleTakesExactlyFortySymbols : Obligations.AssembleTakesExactlyFortySymbols :=
  fun start buf _ => ⟨rfl, assemble_none_iff config buf start.toNat,
    fun f hframe => ((assemble_eq_some_iff buf start.toNat f).mp hframe).2⟩

/-- Settles O24: the buffer spells the frame by hypothesis. -/
theorem assembleReproducesEveryFrame : Obligations.AssembleReproducesEveryFrame :=
  fun f buf start hlen hstands => (assemble_eq_some_iff buf start f).mpr ⟨hlen, hstands⟩

/-- Settles O25: the register's frame is spelled by the buffer too, so it is the one ASSEMBLE gives. -/
theorem shiftRegisterAssemblerAgrees : Obligations.ShiftRegisterAssemblerAgrees := by
  intro v m start
  split
  next hlen => exact (assemble_eq_some_iff m start _).mpr ⟨hlen, assembleShift_standsAt v hlen⟩
  next hlen => exact (assemble_none_iff config m start).mpr hlen

end Sys2Proof.Machine
end

section
/-! SUPPORT. The check value as arithmetic on remainders by `x^8 + x^5 + x^4 + 1`: the bit loop of R130 and the long division of
R132 both multiply a remainder by `x`, which is linear and loses nothing; then the statements of 44_checksum_validator.md
(R130 to R132). -/
namespace Sys2Proof.Machine

/-! ### Multiplication by `x` -/

/-- A remainder by the generator, times `x`, reduced again: where `x^8` appears, the generator's lower terms take its place. -/
def mulX (r : Byte) : Byte := (r <<< 1) ^^^ (if r.msb then 0x31 else 0)

theorem mulX_xor (a b : Byte) : mulX (a ^^^ b) = mulX a ^^^ mulX b := by
  have hreduce : ∀ s t : Bool, (if s ^^ t then 0x31 else 0 : Byte) = (if s then 0x31 else 0) ^^^ (if t then 0x31 else 0) := by
    decide
  simp only [mulX, BitVec.msb_xor, BitVec.shiftLeft_xor_distrib, hreduce]
  ac_rfl

/-- `x` does not divide the generator, so no remainder but zero is lost. -/
theorem mulX_eq_zero_iff : ∀ r : Byte, mulX r = 0 ↔ r = 0 := by decide

theorem mulX_iterate_zero (n : Nat) : mulX^[n] 0 = 0 := Function.iterate_fixed rfl n

theorem mulX_iterate_xor (n : Nat) (a b : Byte) : mulX^[n] (a ^^^ b) = mulX^[n] a ^^^ mulX^[n] b :=
  Function.Semiconj₂.iterate mulX_xor n a b

theorem mulX_iterate_eq_zero_iff (n : Nat) (r : Byte) : mulX^[n] r = 0 ↔ r = 0 := by
  induction n with
  | zero => rfl
  | succ n ih => rw [Function.iterate_succ_apply', mulX_eq_zero_iff, ih]

/-! ### The bit loop -/

/-- The mask of R130 picks the top bit. -/
theorem and_top_ne_zero_iff : ∀ r : Byte, r &&& 0x80 ≠ 0 ↔ r.msb = true := by decide

/-- The two registers of R130 matter only through their sum, which a bit step multiplies by `x`. -/
theorem crcBit_xor (p : Byte × Byte) : (crcBit config p).1 ^^^ (crcBit config p).2 = mulX (p.1 ^^^ p.2) := by
  simp only [crcBit, and_top_ne_zero_iff, mulX, BitVec.shiftLeft_xor_distrib]
  split
  · ac_rfl
  · exact BitVec.xor_zero.symm

/-- The two registers of R130 after `n` bit steps: what is left of the byte, and the sum times `x^n`. -/
theorem crcBit_steps (p : Byte × Byte) (n : Nat) :
    let q := (List.range n).foldl (fun p _ => crcBit config p) p
    q.2 = p.2 <<< n ∧ q.1 ^^^ q.2 = mulX^[n] (p.1 ^^^ p.2) := by
  induction n with
  | zero => exact ⟨(BitVec.shiftLeft_zero _).symm, rfl⟩
  | succ n ih =>
    obtain ⟨hbyte, hsum⟩ := ih
    simp only [List.range_succ, List.foldl_append, List.foldl_cons, List.foldl_nil]
    constructor
    · rw [BitVec.shiftLeft_add, ← hbyte]
      rfl
    · rw [crcBit_xor, hsum, Function.iterate_succ_apply']

/-- One byte of the loop: the byte is added and the sum multiplied by `x^8`. -/
theorem crcByte_config (crc b : Byte) : crcByte config crc b = mulX^[8] (crc ^^^ b) := by
  obtain ⟨hbyte, hsum⟩ := crcBit_steps (crc, b) 8
  rwa [hbyte, BitVec.shiftLeft_eq_zero le_rfl, BitVec.xor_zero] at hsum

/-- A register equal to the byte is cleared by it. -/
theorem crcByte_self (b : Byte) : crcByte config b b = 0 := by
  rw [crcByte_config, BitVec.xor_self]
  exact mulX_iterate_zero 8

theorem crcByte_xor (r q a b : Byte) :
    crcByte config (r ^^^ q) (a ^^^ b) = crcByte config r a ^^^ crcByte config q b := by
  simp only [crcByte_config, ← mulX_iterate_xor]
  congr 1
  ac_rfl

/-- The loop over two equally long messages, given as the pairs of their bytes, adds up (R132 a). -/
theorem crcBytes_xor (ps : List (Byte × Byte)) :
    crcBytes config (ps.map fun p => p.1 ^^^ p.2) =
      crcBytes config (ps.map Prod.fst) ^^^ crcBytes config (ps.map Prod.snd) := by
  have hloop : ∀ r q : Byte, (ps.map fun p => p.1 ^^^ p.2).foldl (crcByte config) (r ^^^ q) =
      (ps.map Prod.fst).foldl (crcByte config) r ^^^ (ps.map Prod.snd).foldl (crcByte config) q := by
    induction ps with
    | nil => exact fun _ _ => rfl
    | cons p ps ih =>
      intro r q
      simp only [List.map_cons, List.foldl_cons, crcByte_xor, ih]
  exact hloop config.crcInit config.crcInit

/-- CRC8's four times eight steps written out, over a bit step that stays closed: opened, each step would copy the terms
before it (R130). -/
theorem exec_crc8_of_bit {bit : Byte × Byte → Byte × Byte} (hbit : bit = crcBit config) (b0 b1 b2 b3 : Byte) (s : State) :
    exec (.crc8 b0 b1 b2 b3) s = .next { s with result := .crc (
      let byte := fun crc b : Byte => (bit (bit (bit (bit (bit (bit (bit (bit (crc, b))))))))).1
      byte (byte (byte (byte 0x00 b0) b1) b2) b3) } := by
  subst hbit
  rfl

/-! ### The long division -/

/-- Long division going on from the remainder `r` over more bits, highest power first. -/
def divide (r : Byte) (bits : List Bit) : Byte := bits.foldl (fun r b => mulX r ^^^ Bit.toVec 8 b) r

theorem divide_append (r : Byte) (bits rest : List Bit) : divide r (bits ++ rest) = divide (divide r bits) rest :=
  List.foldl_append

theorem divide_zeros (r : Byte) (n : Nat) : divide r (List.replicate n false) = mulX^[n] r := by
  induction n generalizing r with
  | zero => rfl
  | succ n ih => exact (ih _).trans (congrArg mulX^[n] BitVec.xor_zero)

theorem divide_xor (r q : Byte) (bits : List Bit) : divide (r ^^^ q) bits = mulX^[bits.length] r ^^^ divide q bits := by
  induction bits generalizing r q with
  | nil => rfl
  | cons b bits ih =>
    calc divide (mulX (r ^^^ q) ^^^ Bit.toVec 8 b) bits
      _ = divide (mulX r ^^^ (mulX q ^^^ Bit.toVec 8 b)) bits := by rw [mulX_xor, BitVec.xor_assoc]
      _ = mulX^[bits.length] (mulX r) ^^^ divide (mulX q ^^^ Bit.toVec 8 b) bits := ih ..

theorem mulX_of_msb_false {r : Byte} (h : r.msb = false) : mulX r = r <<< 1 := by
  rw [mulX, h]
  exact BitVec.xor_zero

/-- A register shifted up has room for a bit, so adding the bit and writing it are the same. -/
theorem shiftLeft_one_xor_bit (v : Byte) (b : Bit) : (v <<< 1) ^^^ Bit.toVec 8 b = (v <<< 1) ||| Bit.toVec 8 b := by
  refine BitVec.eq_of_getLsbD_eq fun i hi => ?_
  cases b
  · simp [Bit.toVec]
  · cases i <;> simp [Bit.toVec]

/-- Until `x^8` can appear the division only collects the bits. -/
theorem divide_eq_shiftIn {bits : List Bit} (h : bits.length ≤ 8) : divide 0 bits = shiftIn 8 bits := by
  induction bits using List.reverseRecOn with
  | nil => rfl
  | append_singleton bits b ih =>
    have hlen : bits.length < 8 := by simpa using h
    have htop : (shiftIn 8 bits).msb = false := by
      rw [BitVec.msb_eq_getLsbD_last, shiftIn, shiftFold_getLsbD _ _ _ (by decide), if_neg (by omega)]
      exact BitVec.getLsbD_zero
    rw [divide_append, ih hlen.le, shiftIn_append_singleton]
    calc mulX (shiftIn 8 bits) ^^^ Bit.toVec 8 b
      _ = (shiftIn 8 bits <<< 1) ^^^ Bit.toVec 8 b := by rw [mulX_of_msb_false htop]
      _ = (shiftIn 8 bits <<< 1) ||| Bit.toVec 8 b := shiftLeft_one_xor_bit ..

/-- A byte is its own remainder. -/
theorem divide_zero_byteBits (v : Byte) : divide 0 (byteBits v) = v := by
  have hfold := foldBit_byteBits v
  rwa [funext₂ foldBit_eq_or, ← shiftIn, ← divide_eq_shiftIn le_rfl] at hfold

/-- Over one byte the remainder is multiplied by `x^8` and the byte added. -/
theorem divide_byteBits (r v : Byte) : divide r (byteBits v) = mulX^[8] r ^^^ v := by
  calc divide r (byteBits v) = divide (r ^^^ 0) (byteBits v) := congrArg (divide · _) BitVec.xor_zero.symm
    _ = mulX^[8] r ^^^ divide 0 (byteBits v) := divide_xor ..
    _ = mulX^[8] r ^^^ v := by rw [divide_zero_byteBits]

/-- A step of the division of R132 on a remainder below `x^8`, as it stands in the 9-bit register between steps. -/
theorem divisionStep_setWidth : ∀ (r : Byte) (b : Bit),
    divisionStep (r.setWidth 9) b = (mulX r ^^^ Bit.toVec 8 b).setWidth 9 := by decide

theorem divisionStep_foldl (r : Byte) (bits : List Bit) :
    bits.foldl divisionStep (r.setWidth 9) = (divide r bits).setWidth 9 := by
  induction bits generalizing r with
  | nil => rfl
  | cons b bits ih =>
    rw [List.foldl_cons, divisionStep_setWidth, ih]
    rfl

/-- The bits of a word, highest first. -/
def wordBits {n : Nat} (w : BitVec n) : List Bit := (List.range n).map w.getMsbD

theorem wordBits_append {m n : Nat} (x : BitVec m) (y : BitVec n) : wordBits (x ++ y) = wordBits x ++ wordBits y := by
  rw [wordBits, List.range_add, List.map_append, List.map_map]
  congr 1 <;> refine List.map_congr_left fun i hi => ?_
  · rw [BitVec.getMsbD_append, if_neg (Nat.not_le.mpr (List.mem_range.mp hi))]
  · rw [Function.comp_apply, BitVec.getMsbD_append, if_pos (Nat.le_add_right ..), Nat.add_sub_cancel_left]

theorem remainder_eq_divide (w : BitVec 40) : remainder w = divide 0 (wordBits w) := by
  have hfold : (wordBits w).foldl divisionStep 0 = (divide 0 (wordBits w)).setWidth 9 := divisionStep_foldl 0 _
  rw [remainder, ← wordBits, hfold, BitVec.setWidth_eq_append (by decide)]
  exact slice_append_low (0#1) _

/-- The remainder of four bytes times `x^8` plus a fifth byte is the check value of the four plus the fifth (R132). -/
theorem remainder_bytes (b0 b1 b2 b3 b4 : Byte) :
    remainder (b0 ++ b1 ++ b2 ++ b3 ++ b4) = crc8 config b0 b1 b2 b3 ^^^ b4 := by
  have hbyte : ∀ v : Byte, wordBits v = byteBits v := fun _ => rfl
  have hcrc : crcBytes config [b0, b1, b2, b3] =
      crcByte config (crcByte config (crcByte config (crcByte config 0 b0) b1) b2) b3 := rfl
  rw [crc8_config, hcrc, remainder_eq_divide]
  simp only [wordBits_append, hbyte, divide_append, divide_byteBits, crcByte_config, mulX_iterate_zero]

/-! ### Frames as words -/

/-- VERIFY accepts the frames whose 40 bits the generator divides (R131, R132). -/
theorem verify_iff_remainder (f : Frame) : verify config f = true ↔ remainder f.word = 0 := by
  rw [verify_iff, Frame.word, remainder_bytes]
  exact BitVec.xor_eq_zero_iff.symm

theorem crc8_xor (a0 a1 a2 a3 b0 b1 b2 b3 : Byte) :
    crc8 config (a0 ^^^ b0) (a1 ^^^ b1) (a2 ^^^ b2) (a3 ^^^ b3) = crc8 config a0 a1 a2 a3 ^^^ crc8 config b0 b1 b2 b3 :=
  crcBytes_xor [(a0, b0), (a1, b1), (a2, b2), (a3, b3)]

theorem remainder_frameXor (f g : Frame) :
    remainder (frameXor f g).word = remainder f.word ^^^ remainder g.word := by
  simp only [Frame.word, remainder_bytes, frameXor_getElem, crc8_xor]
  ac_rfl

/-- The bits of a shifted pattern: nothing, the eight bits of the pattern, nothing. -/
theorem wordBits_burst (p : Byte) {k : Nat} (hk : k ≤ 32) :
    wordBits (p.zeroExtend 40 <<< k) = List.replicate (32 - k) false ++ (byteBits p ++ List.replicate k false) := by
  refine List.ext_getElem (by simp [wordBits, byteBits]; omega) fun i hi hi' => ?_
  have hbit : (wordBits (p.zeroExtend 40 <<< k))[i] = (decide (32 ≤ i + k) && p.getMsbD (i + k - 32)) := by
    simp [wordBits, BitVec.getMsbD_shiftLeft, BitVec.getMsbD_setWidth]
  rw [hbit]
  rcases Nat.lt_or_ge i (32 - k) with hbefore | hfrom
  · rw [List.getElem_append_left (by simpa using hbefore), List.getElem_replicate, decide_eq_false (by omega), Bool.false_and]
  have hindex : i + k - 32 = i - (32 - k) := by omega
  rw [decide_eq_true (by omega), Bool.true_and, hindex, List.getElem_append_right (by simpa using hfrom)]
  simp only [List.length_replicate]
  rcases Nat.lt_or_ge (i - (32 - k)) 8 with hinside | hafter
  · rw [List.getElem_append_left hinside]
    simp [byteBits]
  · rw [List.getElem_append_right hafter, List.getElem_replicate, BitVec.getMsbD_of_ge _ _ hafter]

/-- A pattern shifted by `k` leaves the pattern times `x^k`. -/
theorem remainder_burst (p : Byte) {k : Nat} (hk : k ≤ 32) : remainder (burst p k).word = mulX^[k] p := by
  rw [burst, word_ofWord_frame, remainder_eq_divide, wordBits_burst p hk, divide_append, divide_append, divide_zeros 0,
    mulX_iterate_zero, divide_zero_byteBits, divide_zeros]

/-! ### The obligations -/

/-- Settles O28: a fifth byte of zero adds nothing to the check value. -/
theorem crc8IsThePolynomialRemainder : Obligations.Crc8IsThePolynomialRemainder := by
  intro b0 b1 b2 b3
  rw [remainder_bytes]
  exact BitVec.xor_zero.symm

/-- Settles O29, by the linearity of the loop. -/
theorem crc8IsLinear : Obligations.Crc8IsLinear :=
  fun a0 a1 a2 a3 b0 b1 b2 b3 => (crc8_xor a0 a1 a2 a3 b0 b1 b2 b3).symm

/-- Settles O31: before its last byte the loop holds that byte. -/
theorem crcOverMessageAndChecksumIsZero : Obligations.CrcOverMessageAndChecksumIsZero :=
  fun b0 b1 b2 b3 => crcByte_self (crc8 config b0 b1 b2 b3)

/-- Settles O32: the remainder of the flipped frame is the pattern's, which is no more zero than the pattern is. -/
theorem everyShortBurstIsDetected : Obligations.EveryShortBurstIsDetected := by
  intro f p k hvalid hp hk
  rw [verify_iff_remainder] at hvalid
  rw [← Bool.not_eq_true, verify_iff_remainder, remainder_frameXor, hvalid, remainder_burst p hk]
  exact fun hzero => hp ((mulX_iterate_eq_zero_iff k p).mp (BitVec.zero_xor.symm.trans hzero))

/-- Settles O27: the literals of the rule are those of the configuration, so its bit step is the model's. -/
theorem crc8RunsTheBitLoop : Obligations.Crc8RunsTheBitLoop :=
  fun b0 b1 b2 b3 s => exec_crc8_of_bit rfl b0 b1 b2 b3 s

/-- Settles O30: a zero register stays zero over a zero byte. -/
theorem leadingZeroBytesDoNotCount : Obligations.LeadingZeroBytesDoNotCount := by
  intro n bytes
  induction n with
  | zero => rfl
  | succ n ih =>
    calc crcBytes config (List.replicate (n + 1) 0 ++ bytes)
      _ = (List.replicate n 0 ++ bytes).foldl (crcByte config) (crcByte config 0 0) := rfl
      _ = crcBytes config (List.replicate n 0 ++ bytes) := by rw [crcByte_self]; rfl
      _ = crcBytes config bytes := ih

/-- Settles O33: VERIFY's answer is its only effect. -/
theorem verifyComparesTheChecksum : Obligations.VerifyComparesTheChecksum :=
  fun f _ => ⟨rfl, verify_iff f⟩

end Sys2Proof.Machine
end

section
/-! SUPPORT. The sign bit and the magnitude of a frame as numbers, and the temperature they spell; then the statements of
45_field_decoder.md. -/
namespace Sys2Proof.Machine

/-! ### The sign bit and the magnitude -/

/-- The two summands of R140 share no bit, so their sum at 11 bits carries nothing out (R145). -/
theorem magnitude_toNat (f : Frame) : (magnitude f).toNat = f[1].toNat % 8 * 256 + f[2].toNat := by
  have hmask : (f[1] &&& 0x07).toNat = f[1].toNat % 8 := Nat.and_two_pow_sub_one_eq_mod f[1].toNat 3
  have hlow : f[2].toNat < 256 := f[2].isLt
  simp only [magnitude, BitVec.zeroExtend, BitVec.toNat_add, BitVec.toNat_shiftLeft, BitVec.toNat_setWidth, hmask,
    Nat.shiftLeft_eq]
  omega

theorem and_sign_ne_zero_iff : ∀ v : Byte, v &&& 0x08 ≠ 0 ↔ v.getLsbD 3 = true := by decide

theorem negative_iff (f : Frame) : negative f = true ↔ f[1].getLsbD 3 = true :=
  decide_eq_true_iff.trans (and_sign_ne_zero_iff f[1])

/-- A byte's lower nibble holds all that DECODE reads of it: its top bit is the sign, the other three are magnitude (R143). -/
theorem sign_and_magnitude_of_nibble {v w : Byte} (h : slice v 0 4 = slice w 0 4) :
    v.getLsbD 3 = w.getLsbD 3 ∧ v.toNat % 8 = w.toNat % 8 := by
  constructor
  · have hbit := congrArg (·.getLsbD 3) h
    simpa [slice] using hbit
  · have hnum := congrArg BitVec.toNat h
    simp only [slice_toNat, BitVec.ushiftRight_zero] at hnum
    omega

/-! ### The temperature as a number -/

/-- The temperature is the magnitude with the frame's sign (R140): at 12 bits neither the magnitude nor its negation wraps
(R145). -/
theorem tempTenths_toInt (f : Frame) :
    (decodeFrame f).tempTenths.toInt = if f[1].getLsbD 3 then -((magnitude f).toNat : Int) else (magnitude f).toNat := by
  have hlt : (magnitude f).toNat < 2048 := (magnitude f).isLt
  have hmag : ((magnitude f).zeroExtend 12).toInt = (magnitude f).toNat :=
    (BitVec.toInt_setWidth _).trans (Int.bmod_eq_of_le (by omega) (by omega))
  simp only [decodeFrame, ← negative_iff]
  split
  · rw [zero_sub, BitVec.toInt_neg, hmag]
    exact Int.bmod_eq_of_le (by omega) (by omega)
  · exact hmag

/-! ### The obligations -/

/-- Settles O34: the temperature is the signed magnitude, and the magnitude is the number that R140 writes. -/
theorem decodeReadsSignAndMagnitude : Obligations.DecodeReadsSignAndMagnitude := by
  intro f s
  refine ⟨rfl, rfl, ?_⟩
  rw [tempTenths_toInt, magnitude_toNat]

/-- Settles O35: the two frames have the same sign and the same magnitude. -/
theorem decodeIgnoresTheOtherBits : Obligations.DecodeIgnoresTheOtherBits := by
  intro f g hnibble hlow hhum
  obtain ⟨hsign, hhigh⟩ := sign_and_magnitude_of_nibble hnibble
  have hneg : negative f = negative g := by rw [Bool.eq_iff_iff, negative_iff, negative_iff, hsign]
  have hmag : magnitude f = magnitude g :=
    BitVec.eq_of_toNat_eq (by rw [magnitude_toNat, magnitude_toNat, hhigh, hlow])
  simp only [decodeFrame, hneg, hmag, hhum]

/-- Settles O36: 11 bits bound the magnitude, and a magnitude of 0 is its own negation. -/
theorem temperatureRangeHasNoNegativeZero : Obligations.TemperatureRangeHasNoNegativeZero := by
  intro f
  have hmag : (magnitude f).toNat < 2048 := (magnitude f).isLt
  have htemp := tempTenths_toInt f
  refine ⟨?_, ?_, decodeFrame_legal f, fun hzero => BitVec.eq_of_toInt_eq ?_⟩
  · split at htemp <;> omega
  · split at htemp <;> omega
  · rw [htemp, magnitude_toNat, hzero]
    exact ite_self 0

end Sys2Proof.Machine
end

section
/-! SUPPORT. The last answer plays no part in taking an offer or performing it; then the statement of 60_exceptions.md (R156). -/
namespace Sys2Proof.Machine

/-! ### The same instruction after another answer -/

/-- Whatever an instruction reads of the state, the last answer is no part of it (R20, R156). -/
theorem exec_of_other_result (i : Instr) (s : State) (r : Result) : exec i { s with result := r } = exec i s := by
  obtain ⟨lastTs, prev, m, p, r₀, o⟩ := s
  obtain ⟨_, _, _, _, _, hform⟩ := exec_form i lastTs prev m
  exact (hform p r o).trans (hform p r₀ o).symm

/-! ### The obligations -/

/-- Settles O52: with nothing offered both steps wait; otherwise both take the same offer, and refuse its word alike or perform
the same instruction. -/
theorem noStepDependsOnTheLastAnswer : Obligations.NoStepDependsOnTheLastAnswer := by
  intro s r
  obtain hp | hp := eq_or_ne s.pending []
  · exact (step_of_no_offer { s with result := r } hp).trans (step_of_no_offer s hp).symm
  · obtain ⟨o, rest, hp⟩ := List.exists_cons_of_ne_nil hp
    cases hdec : decode o with
    | error e => exact (step_of_reject { s with result := r } hp hdec).trans (step_of_reject s hp hdec).symm
    | ok i =>
      have htake := takeOffer_of_pending s o rest hp
      have htake' := takeOffer_of_pending { s with result := r } o rest hp
      calc step { s with result := r }
          = exec i { s with pending := afterTaking o rest, result := r } := step_of_takeOffer _ _ o i htake' hdec
        _ = exec i { s with pending := afterTaking o rest } :=
          exec_of_other_result i { s with pending := afterTaking o rest } r
        _ = step s := (step_of_takeOffer s _ o i htake hdec).symm

end Sys2Proof.Machine
end

section
/-! SUPPORT. Durations outside every window, the wrap of a backward timestamp, and an EDGE that finds nothing buffered and no On
before; then the statements of 70_reset_and_hazards.md (R170 to R177) and of waiting (R185). -/
namespace Sys2Proof.Machine

/-! ### Timestamps that do not move forward -/

/-- A duration below the lowest window or above the highest is Noise at both levels (R80). -/
theorem classify_outside_windows {level : Level} {dur : Ts} (h : dur.toNat < 250 ∨ 1750 < dur.toNat) :
    classify config level dur = .noise := by
  cases level with
  | low => exact (classify_low_eq true dur).trans (by rw [Bool.toNat_true, if_neg (by omega), if_neg (by omega)])
  | high => exact (classify_high_eq true dur).trans (by rw [Bool.toNat_true, if_neg (by omega)])

/-- The duration of a timestamp that does not move forward is 0, or the 64-bit counter less the step back (R90, R177). -/
theorem duration_of_backward {ts lastTs : Ts} (h : ts.toNat ≤ lastTs.toNat) :
    (ts - lastTs).toNat = 0 ∨ (ts - lastTs).toNat = 2 ^ 64 - (lastTs.toNat - ts.toNat) := by
  bv_omega

/-! ### EDGE with nothing buffered -/

/-- With nothing buffered and no On before, Noise has nothing to decode and any other symbol only sets `prev` (R92, R93, R98). -/
theorem edge_with_nothing_buffered {s : State} (hbuf : s.buf = []) (hprev : s.prev ≠ .on) (level : Level) (ts : Ts) :
    (edge config level ts s).buf = [] ∧ (edge config level ts s).out = s.out := by
  by_cases h : classify config level (ts - s.lastTs) = .noise
  · rw [edge_of_noise h, hbuf, noise_answer_of_empty.2]
    exact ⟨rfl, List.append_nil _⟩
  · rw [edge_without_on h hprev]
    exact ⟨hbuf, rfl⟩

/-! ### The obligations -/

/-- Settles O43: within the bound the wrapped duration is 0 or above every window. -/
theorem backwardTimestampIsNoise : Obligations.BackwardTimestampIsNoise := by
  intro level ts s hback hbound
  have houtside : (ts - s.lastTs).toNat < 250 ∨ 1750 < (ts - s.lastTs).toNat := by
    obtain hzero | hwrap := duration_of_backward hback
    · exact .inl (by omega)
    · exact .inr (by omega)
  refine ⟨edge config level ts s, exec_edge level ts s, ?_⟩
  rw [edge_of_noise (classify_outside_windows houtside)]
  exact ⟨rfl, rfl, rfl⟩

/-- Settles O46: whatever `LAST_TS_RESET` is, RESET leaves nothing buffered, `prev` at Noise and the output as it was. -/
theorem firstEventStoresNothing : Obligations.FirstEventStoresNothing := by
  intro v level ts s
  rw [resetCore_eq]
  exact edge_with_nothing_buffered rfl (by simp) level ts

/-- Settles O11: there is no offer to take. -/
theorem nothingOfferedChangesNothing : Obligations.NothingOfferedChangesNothing :=
  step_of_no_offer

/-- Settles O12: taking the offer leaves its event offered, and what is read of it is RESET. -/
theorem resetWinsOverAnOfferedEvent : Obligations.ResetWinsOverAnOfferedEvent := by
  intro s e rest hp
  refine ⟨by simp [State.evReady, State.rst, hp], ?_⟩
  calc step s = exec .reset { s with pending := .event e :: rest } :=
        step_of_takeOffer s _ _ .reset (takeOffer_of_pending s _ rest hp) rfl
    _ = .next (resetCore config { s with pending := .event e :: rest }) := rfl
    _ = _ := by rw [resetCore_eq]

/-- Settles O44: the value that RESET writes to `last_ts` is the configuration's. -/
theorem resetWritesTheInitialState : Obligations.ResetWritesTheInitialState := by
  refine ⟨fun v s => ?_, fun s => congrArg Host.Outcome.next (resetCore_eq config s)⟩
  rw [resetCore_eq, resetTs_of_toNat]

/-- Settles O45: the fields of the reset state, and an empty buffer has no entry to read. -/
theorem resetStateIsTheSpecs : Obligations.ResetStateIsTheSpecs :=
  ⟨rfl, rfl, rfl, rfl, rfl, fun i => (bufRead_eq_none_iff _ i).mpr (Nat.zero_le i)⟩

end Sys2Proof.Machine
end
